-- ==== Sys2Proof/Word.lean ====
section
/-! DEFINITION. The bit patterns of PQP CORE (R10 and R11 of spec/00_scope.md): their widths and nothing else. -/

namespace Sys2Proof

/-- A 32-bit pattern, `bits32` of R11. `BitVec.toInt` is the spec's `signed`, `BitVec.toNat` its `unsigned`: two's
complement (K1; log 22, PRESUMED). -/
abbrev Word := BitVec 32

/-- A 16-bit pattern, `bits16` of R11: imm16 and off16 (R64). -/
abbrev Half := BitVec 16

/-- An 8-bit pattern, `byte` of R11. -/
abbrev Byte := BitVec 8

/-- A 4-bit pattern, `nib` of R11: the fields X and Y (R61), always in 0..15. -/
abbrev Nibble := BitVec 4

end Sys2Proof
end

