-- ==== Sys2Proof/Syntax.lean ====
section
/-! DEFINITION. The 17 decode cases of R73 (spec/30_encoding.md), one constructor each. The four UNKNOWN rows of
spec/opcode_table.json are one case, UNKNOWN(op) (log 21, DEDUCED). Every constructor keeps ALL the fields of its word, those its
format ignores too (R63, R68), because the trace record carries them (R93; log 20, UNVERIFIED). -/

namespace Sys2Proof

/-- An instruction of PQP CORE. `x` and `y` are the nibbles X and Y of the operand byte, `b2` and `b3` the bytes 2 and 3,
`imm` and `off` the 16-bit field of bytes 2 and 3 (R61, R64). -/
inductive Instr where
  /-- 0x00, format RI: `MOV Rx, #imm` (R100); `y` ignored. -/
  | movRi (x y : Nibble) (imm : Half)
  /-- 0x01, format RR: `MOV Rx, Ry` (R102); `b2`, `b3` ignored. -/
  | movRr (x y : Nibble) (b2 b3 : Byte)
  /-- 0x02, format RR: `MOV Rx, [Ry]` (R104); `b2`, `b3` ignored. -/
  | movRm (x y : Nibble) (b2 b3 : Byte)
  /-- 0x03, format RR: `MOV [Rx], Ry` (R108); `b2`, `b3` ignored. -/
  | movMr (x y : Nibble) (b2 b3 : Byte)
  /-- 0x04, format RR: `CMP x, y`, the values X and Y themselves (R120); `b2`, `b3` ignored. -/
  | cmp (x y : Nibble) (b2 b3 : Byte)
  /-- 0x05, format B: `JMP off` (R123); `x`, `y` ignored. -/
  | jmp (x y : Nibble) (off : Half)
  /-- 0x06, format B: `JG off` (R126); `x`, `y` ignored. -/
  | jg (x y : Nibble) (off : Half)
  /-- 0x07, format B: `JL off` (R127); `x`, `y` ignored. -/
  | jl (x y : Nibble) (off : Half)
  /-- 0x08, format B: `JE off` (R128); `x`, `y` ignored. -/
  | je (x y : Nibble) (off : Half)
  /-- 0x09, format RR: `ADD Rx, Ry` (R140); `b2`, `b3` ignored. -/
  | add (x y : Nibble) (b2 b3 : Byte)
  /-- 0x0A, format RR: `SUB Rx, Ry` (R141); `b2`, `b3` ignored. -/
  | sub (x y : Nibble) (b2 b3 : Byte)
  /-- 0x0B, format RR: `AND Rx, Ry` (R142); `b2`, `b3` ignored. -/
  | and (x y : Nibble) (b2 b3 : Byte)
  /-- 0x0C, format RR: `OR Rx, Ry` (R143); `b2`, `b3` ignored. -/
  | or (x y : Nibble) (b2 b3 : Byte)
  /-- 0x0D, format RR: `XOR Rx, Ry` (R144); `b2`, `b3` ignored. -/
  | xor (x y : Nibble) (b2 b3 : Byte)
  /-- 0x0E, format RS: `SAL Rx, #b3` (R145); `y`, `b2` ignored. -/
  | sal (x y : Nibble) (b2 b3 : Byte)
  /-- 0x0F, format RS: `SAR Rx, #b3` (R146); `y`, `b2` ignored. -/
  | sar (x y : Nibble) (b2 b3 : Byte)
  /-- 0x10 to 0xFF, out of range (R70): skipped; `x`, `y`, `b2`, `b3` ignored. -/
  | unknown (op : Byte) (x y : Nibble) (b2 b3 : Byte)
  deriving DecidableEq, Repr

end Sys2Proof
end

