-- ==== Sys2Proof/WellFormed.lean ====
section
/-! DEFINITION. Which instructions a 4-byte word can stand for (R69, R70, R73 of spec/30_encoding.md). -/

namespace Sys2Proof

/-- Every field of every case is in range by its type; the one check is that UNKNOWN carries an opcode byte of 0x10 or
more (R70), since 0x00 to 0x0F are the defined operations (R69). -/
def Instr.wellFormed : Instr → Bool
  | .movRi _ _ _ => true
  | .movRr _ _ _ _ => true
  | .movRm _ _ _ _ => true
  | .movMr _ _ _ _ => true
  | .cmp _ _ _ _ => true
  | .jmp _ _ _ => true
  | .jg _ _ _ => true
  | .jl _ _ _ => true
  | .je _ _ _ => true
  | .add _ _ _ _ => true
  | .sub _ _ _ _ => true
  | .and _ _ _ _ => true
  | .or _ _ _ _ => true
  | .xor _ _ _ _ => true
  | .sal _ _ _ _ => true
  | .sar _ _ _ _ => true
  | .unknown op _ _ _ _ => decide (0x10 ≤ op.toNat)

end Sys2Proof
end

