-- ==== Sys2Proof/Decode.lean ====
section
/-! DEFINITION. The Byte Decoder (R14, R60 to R73 of spec/30_encoding.md): words to instructions, and the encoder back.
Decoding never fails on four bytes (R73); fewer than four bytes are rejected by name. -/

namespace Sys2Proof

/-- `high_nibble` of R14: bits 7 to 4 of the operand byte, the field X (R61). -/
def highNibble (ob : Byte) : Nibble := ob.extractLsb' 4 4

/-- `low_nibble` of R14: bits 3 to 0 of the operand byte, the field Y (R61). -/
def lowNibble (ob : Byte) : Nibble := ob.extractLsb' 0 4

/-- The operand byte that holds X and Y (R61). -/
def operandByte (x y : Nibble) : Byte := x ++ y

/-- The 16-bit field of bytes 2 and 3, byte 2 the high byte (R64; log 1, UNVERIFIED). -/
def pack16 (b2 b3 : Byte) : Half := b2 ++ b3

/-- Byte 2 of a word whose 16-bit field is `imm` (R64). -/
def hiByte (imm : Half) : Byte := imm.extractLsb' 8 8

/-- Byte 3 of a word whose 16-bit field is `imm` (R64). -/
def loByte (imm : Half) : Byte := imm.extractLsb' 0 8

/-- The instruction of the word `op ob b2 b3` (R69, R70). The whole opcode byte selects (R69). -/
def decodeWord (op ob b2 b3 : Byte) : Instr :=
  let x := highNibble ob
  let y := lowNibble ob
  match op.toNat with
  | 0x00 => .movRi x y (pack16 b2 b3)
  | 0x01 => .movRr x y b2 b3
  | 0x02 => .movRm x y b2 b3
  | 0x03 => .movMr x y b2 b3
  | 0x04 => .cmp x y b2 b3
  | 0x05 => .jmp x y (pack16 b2 b3)
  | 0x06 => .jg x y (pack16 b2 b3)
  | 0x07 => .jl x y (pack16 b2 b3)
  | 0x08 => .je x y (pack16 b2 b3)
  | 0x09 => .add x y b2 b3
  | 0x0A => .sub x y b2 b3
  | 0x0B => .and x y b2 b3
  | 0x0C => .or x y b2 b3
  | 0x0D => .xor x y b2 b3
  | 0x0E => .sal x y b2 b3
  | 0x0F => .sar x y b2 b3
  | _ => .unknown op x y b2 b3

/-- Why a byte sequence is no instruction. -/
inductive DecodeError where
  /-- Fewer than four bytes are left; every instruction has four (R60). Safe. -/
  | truncated
  deriving DecidableEq, Repr

/-- The first instruction of a byte sequence in address order (R49, R60), with the bytes after it. -/
def decode : List Byte → Except DecodeError (Instr × List Byte)
  | op :: ob :: b2 :: b3 :: rest => .ok (decodeWord op ob b2 b3, rest)
  | _ => .error .truncated

/-- The opcode byte of an instruction (R69). -/
def Instr.opcode : Instr → Byte
  | .movRi _ _ _ => 0x00#8
  | .movRr _ _ _ _ => 0x01#8
  | .movRm _ _ _ _ => 0x02#8
  | .movMr _ _ _ _ => 0x03#8
  | .cmp _ _ _ _ => 0x04#8
  | .jmp _ _ _ => 0x05#8
  | .jg _ _ _ => 0x06#8
  | .jl _ _ _ => 0x07#8
  | .je _ _ _ => 0x08#8
  | .add _ _ _ _ => 0x09#8
  | .sub _ _ _ _ => 0x0A#8
  | .and _ _ _ _ => 0x0B#8
  | .or _ _ _ _ => 0x0C#8
  | .xor _ _ _ _ => 0x0D#8
  | .sal _ _ _ _ => 0x0E#8
  | .sar _ _ _ _ => 0x0F#8
  | .unknown op _ _ _ _ => op

/-- The four bytes of a word of formats RR, RS and none (R61). -/
def encodeBytes (op : Byte) (x y : Nibble) (b2 b3 : Byte) : List Byte := [op, operandByte x y, b2, b3]

/-- The four bytes of a word of formats RI and B (R61, R64). -/
def encodeHalf (op : Byte) (x y : Nibble) (imm : Half) : List Byte :=
  [op, operandByte x y, hiByte imm, loByte imm]

/-- The word of an instruction, its four bytes in address order (R60 to R64, R69). -/
def encode : Instr → List Byte
  | .movRi x y imm => encodeHalf 0x00#8 x y imm
  | .movRr x y b2 b3 => encodeBytes 0x01#8 x y b2 b3
  | .movRm x y b2 b3 => encodeBytes 0x02#8 x y b2 b3
  | .movMr x y b2 b3 => encodeBytes 0x03#8 x y b2 b3
  | .cmp x y b2 b3 => encodeBytes 0x04#8 x y b2 b3
  | .jmp x y off => encodeHalf 0x05#8 x y off
  | .jg x y off => encodeHalf 0x06#8 x y off
  | .jl x y off => encodeHalf 0x07#8 x y off
  | .je x y off => encodeHalf 0x08#8 x y off
  | .add x y b2 b3 => encodeBytes 0x09#8 x y b2 b3
  | .sub x y b2 b3 => encodeBytes 0x0A#8 x y b2 b3
  | .and x y b2 b3 => encodeBytes 0x0B#8 x y b2 b3
  | .or x y b2 b3 => encodeBytes 0x0C#8 x y b2 b3
  | .xor x y b2 b3 => encodeBytes 0x0D#8 x y b2 b3
  | .sal x y b2 b3 => encodeBytes 0x0E#8 x y b2 b3
  | .sar x y b2 b3 => encodeBytes 0x0F#8 x y b2 b3
  | .unknown op x y b2 b3 => encodeBytes op x y b2 b3

/-- The four bytes, in address order, of the instruction whose bits the opcode table numbers as `w` (R62:
`W = M[pc] || M[pc+1] || M[pc+2] || M[pc+3]`), every bit at or above `nbits` taken as 0. -/
def tableBytes (nbits w : Nat) : List Byte :=
  let v := BitVec.ofNat 32 (w % 2 ^ nbits)
  [v.extractLsb' 24 8, v.extractLsb' 16 8, v.extractLsb' 8 8, v.extractLsb' 0 8]

/-- What the decoder reads from an instruction whose bits are `w`, numbered as spec/opcode_table.json numbers them. -/
def decodeTableWord (nbits w : Nat) : Option Instr :=
  match decode (tableBytes nbits w) with
  | .ok (i, _) => some i
  | .error _ => none

/-! ### Assembler spelling (section 4 of spec/30_encoding.md). Notation only (D17; log 24, UNVERIFIED): no step
uses it. -/

/-- `Rn` of R74. -/
def regName (r : Nibble) : String := "R" ++ Nat.repr r.toNat

/-- A signed number of R74. -/
def signedText (i : Int) : String := if i < 0 then "-" ++ Nat.repr i.natAbs else Nat.repr i.natAbs

/-- The assembler spelling of an instruction (R69, R74); an out-of-range word has none. -/
def Instr.spelling : Instr → Option String
  | .movRi x _ imm => some ("MOV " ++ regName x ++ ", #" ++ signedText imm.toInt)
  | .movRr x y _ _ => some ("MOV " ++ regName x ++ ", " ++ regName y)
  | .movRm x y _ _ => some ("MOV " ++ regName x ++ ", [" ++ regName y ++ "]")
  | .movMr x y _ _ => some ("MOV [" ++ regName x ++ "], " ++ regName y)
  | .cmp x y _ _ => some ("CMP " ++ Nat.repr x.toNat ++ ", " ++ Nat.repr y.toNat)
  | .jmp _ _ off => some ("JMP " ++ signedText off.toInt)
  | .jg _ _ off => some ("JG " ++ signedText off.toInt)
  | .jl _ _ off => some ("JL " ++ signedText off.toInt)
  | .je _ _ off => some ("JE " ++ signedText off.toInt)
  | .add x y _ _ => some ("ADD " ++ regName x ++ ", " ++ regName y)
  | .sub x y _ _ => some ("SUB " ++ regName x ++ ", " ++ regName y)
  | .and x y _ _ => some ("AND " ++ regName x ++ ", " ++ regName y)
  | .or x y _ _ => some ("OR " ++ regName x ++ ", " ++ regName y)
  | .xor x y _ _ => some ("XOR " ++ regName x ++ ", " ++ regName y)
  | .sal x _ _ b3 => some ("SAL " ++ regName x ++ ", #" ++ Nat.repr b3.toNat)
  | .sar x _ _ b3 => some ("SAR " ++ regName x ++ ", #" ++ Nat.repr b3.toNat)
  | .unknown _ _ _ _ _ => none

/-- The offset field of a jump at `pc` to label `l`: `l - (pc + 4)`, refused outside -32768..32767 (R74). -/
def labelOffset (pc l : Int) : Option Half :=
  let d := l - (pc + 4)
  if -32768 ≤ d ∧ d ≤ 32767 then some (BitVec.ofInt 16 d) else none

/-- The `NOP` idiom of R75: `JMP 0`. -/
def idiomNop : Instr := .jmp 0 0 0

/-- The `CLR Rx` idiom of R75: `XOR Rx, Rx`. -/
def idiomClr (x : Nibble) : Instr := .xor x x 0 0

/-- The `SETEQ`, `SETLT` and `SETGT` idioms of R75: `CMP 0, 0`, `CMP 0, 1`, `CMP 1, 0`. -/
def idiomSetEq : Instr := .cmp 0 0 0 0

/-- `SETLT` of R75. -/
def idiomSetLt : Instr := .cmp 0 1 0 0

/-- `SETGT` of R75. -/
def idiomSetGt : Instr := .cmp 1 0 0 0

end Sys2Proof
end

