-- ==== Sys2Proof/Config.lean ====
section
/-! DEFINITION. What is fixed for the machine (R8 of spec/00_scope.md) and the one value the spec leaves open that no
launch argument carries (R34 of spec/10_state.md). -/

namespace Sys2Proof.Config

/-- MEM_BYTES of R8: the buffer has addresses 0 to 127. -/
abbrev memBytes : Nat := 128

/-- The last address at which four bytes of the buffer begin (R45, R84): 124. -/
abbrev lastWord : Int := 124

/-- What a byte of the buffer reads as that no cell lists. DESIGN CHOICE (log 5), unsafe for runs from `State.reset`:
the reference value of TAIL_INIT (R42, D5); every other TAIL_INIT is listed by `State.launch`. -/
abbrev unlistedByte : Byte := 0x00#8

/-- FREE VALUE (log 8), safe: what the host reads from counter `k` when its exact count has reached 2^31 or more
(R34, R191, I7: any value). It has no body, so no proof can know it. -/
opaque counterReadout (k count : Nat) : Nat

end Sys2Proof.Config
end

