-- ==== Sys2Proof/Machine/State.lean ====
section
/-! DEFINITION. The state of PQP CORE: exactly the tuple of R39 (spec/10_state.md), and the sink's received records,
which are the model's own field. Plain data. -/

namespace Sys2Proof.Machine

/-- The flag register (R28): three independent booleans, any combination of them (R30). -/
structure Flags where
  gt : Bool
  lt : Bool
  eq : Bool
  deriving DecidableEq, Repr

/-- The run state (R35 of spec/10_state.md). -/
inductive RunState where
  | run
  | exit
  | fault
  deriving DecidableEq, Repr

/-- The causes of a fault of the spec's own (R162 of spec/60_exceptions.md; log 12, UNVERIFIED). -/
inductive FaultCause where
  /-- pc below 0 at the start of a step (R82). -/
  | pcNegative
  /-- pc in the program and pc + 3 above 127 (R84). -/
  | fetchOutOfRange
  /-- a data address outside 0..124 (R45, R105, R109). -/
  | memOutOfRange
  deriving DecidableEq, Repr

/-- What a fault records beside its cause and pc (R162, column "info recorded"). -/
inductive FaultInfo where
  /-- causes 1 and 2: the pc value. -/
  | pcValue (pc : Int)
  /-- cause 3: the address a, and the opcode. -/
  | access (a : Int) (op : Byte)
  deriving DecidableEq, Repr

/-- The fault record (cause, pc, info) of R39 and R161. -/
structure FaultRecord where
  cause : FaultCause
  pc : Int
  info : FaultInfo
  deriving DecidableEq, Repr

/-- The effect a trace record carries (the table of R93, spec/40_engine.md). -/
inductive Effect where
  /-- REG(X, new x[X]): 0x0, 0x1, 0x9 to 0xF. -/
  | reg (x : Nibble) (v : Word)
  /-- LOAD(a, X, new x[X]): 0x2. -/
  | load (a : Int) (x : Nibble) (v : Word)
  /-- STORE(a, the four bytes at a to a + 3 as written): 0x3. -/
  | store (a : Int) (m0 m1 m2 m3 : Byte)
  /-- FLAGS(gt, lt, eq) as written: 0x4. -/
  | flags (f : Flags)
  /-- BRANCH(taken, new pc): 0x5 to 0x8. -/
  | branch (taken : Bool) (next : Int)
  /-- UNKNOWN: 0x10 to 0xFF. -/
  | unknown
  deriving DecidableEq, Repr

/-- A record handed to the trace sink (R93, R94, R95 of spec/40_engine.md). -/
inductive Record where
  /-- Trace(addr, op, X, Y, b2, b3, effect): one executed or skipped instruction (R93). -/
  | trace (addr : Int) (op : Byte) (x y : Nibble) (b2 b3 : Byte) (effect : Effect)
  /-- Exit(addr): the step that ends the run (R94). -/
  | exit (addr : Int)
  /-- Fault(cause, addr, info): a faulting step (R95). -/
  | fault (cause : FaultCause) (addr : Int) (info : FaultInfo)
  deriving DecidableEq, Repr

/-- The 128-byte buffer M (R40 of spec/20_memory.md) as a list of cells in canonical form (`Memory.wf`). -/
abbrev Memory := List Host.Cell

/-- The architectural state: the tuple of R39 (spec/10_state.md), then `trace`. -/
structure State where
  /-- x[0..15] (R20). -/
  regs : Vector Word 16
  /-- The program counter, an exact integer (R24; log 17, DEDUCED). -/
  pc : Int
  /-- The flag register (R28). -/
  flags : Flags
  /-- hist[0..15], exact counts (R32, R34; log 8, DESIGN CHOICE). -/
  hist : Vector Nat 16
  /-- M[0..127] (R40). -/
  mem : Memory
  /-- LEN, the exact number of program bytes loaded (R27; log 18, UNVERIFIED). -/
  len : Nat
  /-- The run state (R35). -/
  run : RunState
  /-- The fault record, or none (R39). -/
  fault : Option FaultRecord
  /-- THE MODEL'S OWN field (log 14, DESIGN CHOICE): the records handed to the trace sink so far, newest first. No step reads it. -/
  trace : List Record
  deriving DecidableEq, Repr

/-- Why the machine stops. Only `step` answers one of these; no instruction's meaning does (log 13, DESIGN CHOICE). -/
inductive Fault where
  /-- A step was asked of a machine whose run state is EXIT: it takes no step (R80, R81). Safe. -/
  | afterExit
  /-- A step was asked of a machine whose run state is FAULT: it takes no step (R80, R161). Safe. -/
  | afterFault
  deriving DecidableEq, Repr

/-- Why a step is refused. -/
inductive Refusal where
  /-- An arm of `exec` without a meaning. No arm raises it: every instruction has its meaning. Safe. -/
  | notModelled (mnemonic : String)
  deriving DecidableEq, Repr

/-- The machine right after reset with nothing loaded (R180 of spec/70_reset_and_hazards.md): registers, pc and counters
(log 7, UNVERIFIED) 0, LEN 0, RUN, no fault record. The flags take the reference value of FLAGS_INIT (log 6, DESIGN CHOICE, unsafe) and the
buffer that of TAIL_INIT (log 5, DESIGN CHOICE, unsafe). `State.launch` gives every other launch (log 19, DESIGN CHOICE). -/
def State.reset : State where
  regs := Vector.replicate 16 0x00000000#32
  pc := 0
  flags := ⟨false, false, false⟩
  hist := Vector.replicate 16 0
  mem := []
  len := 0
  run := .run
  fault := none
  trace := []

end Sys2Proof.Machine
end

