-- ==== Sys2Proof/Machine/Ops.lean ====
section
/-! DEFINITION. The named operations over memory, registers, counters, the sink and the run state. Every meaning is built
of these. -/

namespace Sys2Proof.Machine

/-! ### The buffer (spec/20_memory.md) -/

/-- One byte of the buffer: the listed one, else `Config.unlistedByte`. -/
def Memory.read : Memory → Nat → Byte
  | [], _ => Config.unlistedByte
  | (b, v) :: m, a => if a = b then v else Memory.read m a

/-- The buffer with no cell at `a`. -/
def Memory.remove : Memory → Nat → Memory
  | [], _ => []
  | (b, v) :: m, a => if a = b then Memory.remove m a else (b, v) :: Memory.remove m a

/-- The buffer with the cell `(a, v)` at its place in rising order, replacing the one that was there. -/
def Memory.insert : Memory → Nat → Byte → Memory
  | [], a, v => [(a, v)]
  | (b, w) :: m, a, v =>
    if a < b then (a, v) :: (b, w) :: m
    else if a = b then (a, v) :: m
    else (b, w) :: Memory.insert m a v

/-- `MemWrite(a, 1, v)` of R12, keeping the canonical form: what an unlisted byte reads as is not listed. -/
def Memory.write (m : Memory) (a : Nat) (v : Byte) : Memory :=
  if v = Config.unlistedByte then m.remove a else m.insert a v

/-- The canonical form: addresses strictly rising and inside the buffer (R40), no cell equal to what an unlisted byte
reads as. -/
abbrev Memory.wf (m : Memory) : Prop :=
  m.Pairwise (fun c d => c.1 < d.1) ∧ ∀ c ∈ m, c.1 < Config.memBytes ∧ c.2 ≠ Config.unlistedByte

/-- The bytes of a list placed at `a`, `a + 1`, and so on. -/
def Memory.place : List Byte → Nat → Memory → Memory
  | [], _, m => m
  | b :: bs, a, m => Memory.place bs (a + 1) (m.write a b)

/-! ### Registers and buffer of a state -/

/-- Read x[r] (R20, R21: a 4-bit index is always in range). -/
def State.reg (s : State) (r : Nibble) : Word := s.regs[r.toNat]'r.isLt

/-- Write x[r] (R20). -/
def State.setReg (s : State) (r : Nibble) (v : Word) : State :=
  { s with regs := s.regs.set r.toNat v r.isLt }

/-- `MemRead(a, 1)` of R12. A read changes nothing (R53). -/
def State.byte (s : State) (a : Nat) : Byte := s.mem.read a

/-- Byte `k` (0 to 3) of a stored word, most-significant byte first (R46, R110). -/
def storedByte (v : Word) (k : Nat) : Byte := v.extractLsb' (24 - 8 * k) 8

/-- The 4-byte store at `a`, most-significant byte first (R46, R110). LEN stays (R27). -/
def State.storeWord (s : State) (a : Nat) (v : Word) : State :=
  { s with mem := (((s.mem.write a (storedByte v 0)).write (a + 1) (storedByte v 1)).write (a + 2)
      (storedByte v 2)).write (a + 3) (storedByte v 3) }

/-- Write all three flags at once (R28). -/
def State.setFlags (s : State) (f : Flags) : State := { s with flags := f }

/-! ### The end of a step (spec/40_engine.md) -/

/-- Set the program counter (R87). -/
def State.setPc (s : State) (pc : Int) : State := { s with pc := pc }

/-- The pattern the 32-bit register pc holds (R24; log 17, DEDUCED). Every state of a run has a pc that it shows exactly. -/
def State.pcRegister (s : State) : Word := BitVec.ofInt 32 s.pc

/-- Read hist[k] (R32). -/
def State.counter (s : State) (k : Nibble) : Nat := s.hist[k.toNat]'k.isLt

/-- hist[k] <- hist[k] + 1 (R85). -/
def State.count (s : State) (k : Nibble) : State :=
  { s with hist := s.hist.set k.toNat (s.counter k + 1) k.isLt }

/-- Hand one record to the trace sink (R93). -/
def State.emit (s : State) (r : Record) : State := { s with trace := r :: s.trace }

/-- The opcode byte of a defined operation: bits 7 to 4 are zero (R69). -/
def opByte (k : Nibble) : Byte := 0#4 ++ k

/-- The end of every executed instruction of opcode `k`: its counter, its trace record and the next pc (R85, R87, R93).
`s` is the state after the operation's own effect and before the pc changes (R88). -/
def State.retire (s : State) (k x y : Nibble) (b2 b3 : Byte) (e : Effect) (next : Int) : State :=
  ((s.count k).emit (.trace s.pc (opByte k) x y b2 b3 e)).setPc next

/-- The end of a skipped word (R70): its trace record of kind UNKNOWN and pc + 4; no counter (log 2, UNVERIFIED). -/
def State.skip (s : State) (op : Byte) (x y : Nibble) (b2 b3 : Byte) : State :=
  (s.emit (.trace s.pc op x y b2 b3 .unknown)).setPc (s.pc + 4)

/-- TAKING A FAULT (R89, R95, R161): the run state becomes FAULT, the record (cause, pc, info) is kept, the fault record is
emitted, and nothing else changes. There is no handler and no return (R165). -/
def State.raise (s : State) (cause : FaultCause) (info : FaultInfo) : State :=
  { s with
    run := .fault
    fault := some ⟨cause, s.pc, info⟩
    trace := .fault cause s.pc info :: s.trace }

/-- The code of a fault cause (R162; log 12, UNVERIFIED). No instruction reads it. -/
def FaultCause.code : FaultCause → Nat
  | .pcNegative => 1
  | .fetchOutOfRange => 2
  | .memOutOfRange => 3

/-- Entering EXIT (R81, R94): the run state and the exit record, nothing else. -/
def State.enterExit (s : State) : State :=
  { s with run := .exit, trace := .exit s.pc :: s.trace }

/-! ### The load before a run (spec/70_reset_and_hazards.md) -/

/-- The machine at the start of a run (R180, R187), for every launch: `prog` is what the loader supplies, of which a 129th
byte and later are not loaded; `tail` is TAIL_INIT from address LEN upward (R42), the bytes it does not give reading
`Config.unlistedByte`; `f` is FLAGS_INIT (R30). -/
def State.launch (prog tail : List Byte) (f : Flags) : State :=
  { State.reset with
    flags := f
    mem := Memory.place ((prog.take Config.memBytes ++ tail).take Config.memBytes) 0 []
    len := (prog.take Config.memBytes).length }

end Sys2Proof.Machine
end

