-- ==== Sys2Proof/Machine/Operands.lean ====
section
/-! DEFINITION. Operand forms, addresses, targets and the arithmetic of the results (R44, R45, R64 to R67 of spec/; R106,
R123, R140 to R147). -/

namespace Sys2Proof.Machine

/-- A data address: `signed(x[r])`, an exact integer (R44). -/
def dataAddr (v : Word) : Int := v.toInt

/-- A data access is admitted only when `0 <= a` and `a + 3 <= 127` (R45); no alignment is asked (R50; log 3, UNVERIFIED). -/
def admitted (a : Int) : Bool := decide (0 ≤ a ∧ a ≤ Config.lastWord)

/-- The immediate widened by sign extension (R65). -/
def immWord (imm : Half) : Word := imm.signExtend 32

/-- The next pc of a step that does not set it (R26, R87). -/
def nextPc (pc : Int) : Int := pc + 4

/-- A jump's target: the offset counts bytes from the instruction after the jump, an exact sum (R65, R123). -/
def branchTarget (pc : Int) (off : Half) : Int := pc + off.toInt + 4

/-- The load's nibble-wise composition of four unsigned bytes (R106; log 11, UNVERIFIED). -/
def composeNibbles (b0 b1 b2 b3 : Byte) : Word :=
  (b0.setWidth 32 <<< 12) ||| (b1.setWidth 32 <<< 8) ||| (b2.setWidth 32 <<< 4) ||| b3.setWidth 32

/-- The value a load from `a` gives (R106). -/
def State.loadValue (s : State) (a : Nat) : Word :=
  composeNibbles (s.byte a) (s.byte (a + 1)) (s.byte (a + 2)) (s.byte (a + 3))

/-- `wrap32` of R11: the pattern congruent to `i` mod 2^32. -/
def wrap32 (i : Int) : Word := BitVec.ofInt 32 i

/-- ADD's result (R140; log 9, UNVERIFIED). -/
def addWord (u v : Word) : Word := wrap32 (u.toInt + v.toInt)

/-- SUB's result (R141; log 9, UNVERIFIED). -/
def subWord (u v : Word) : Word := wrap32 (u.toInt - v.toInt)

/-- SAL's result (R145; log 10, UNVERIFIED): zeros come in, and a count of 32 or more gives 0. -/
def salWord (v : Word) (n : Byte) : Word := if 32 ≤ n.toNat then 0#32 else v <<< n.toNat

/-- SAR's result (R146; log 10, UNVERIFIED; K2, log 22, PRESUMED): copies of bit 31 come in, and a count above 31 acts as 31. -/
def sarWord (v : Word) (n : Byte) : Word := v.sshiftRight (min n.toNat 31)

end Sys2Proof.Machine
end

