-- ==== Sys2Proof/Machine/Flags.lean ====
section
/-! DEFINITION. The flag computations (R28 to R31 of spec/10_state.md, R120 of spec/42_compare_branch.md). -/

namespace Sys2Proof.Machine

/-- What CMP writes: the comparison of the nibbles X and Y as unsigned values 0..15 (R120; log 15, UNVERIFIED). -/
def compareFlags (x y : Nibble) : Flags where
  gt := decide (y.toNat < x.toNat)
  lt := decide (x.toNat < y.toNat)
  eq := decide (x.toNat = y.toNat)

/-- The packed 3-bit view: bit 2 greater, bit 1 less, bit 0 equal (R31; log 16, UNVERIFIED). No instruction reads it. -/
def Flags.pack (f : Flags) : BitVec 3 := BitVec.ofBool f.gt ++ BitVec.ofBool f.lt ++ BitVec.ofBool f.eq

end Sys2Proof.Machine
end

