-- ==== Sys2Proof/Machine/DataMove.lean ====
section
/-! DEFINITION. The meanings of the four MOV instructions (spec/41_data_movement.md). -/

namespace Sys2Proof.Machine

/-- The end of an instruction whose only result is x[X] (R87, R93): the write, then `State.retire` with effect REG. -/
def State.writeResult (s : State) (k x y : Nibble) (b2 b3 : Byte) (v : Word) : State :=
  (s.setReg x v).retire k x y b2 b3 (.reg x v) (nextPc s.pc)

/-- MOV_RI (R100): `x[X] <- sext_32(b2 || b3)`. -/
def execMovRi (x y : Nibble) (imm : Half) (s : State) : Host.Outcome State Fault Refusal :=
  .next (s.writeResult 0x0#4 x y (hiByte imm) (loByte imm) (immWord imm))

/-- MOV_RR (R102): `x[X] <- x[Y]`. -/
def execMovRr (x y : Nibble) (b2 b3 : Byte) (s : State) : Host.Outcome State Fault Refusal :=
  .next (s.writeResult 0x1#4 x y b2 b3 (s.reg y))

/-- MOV_RM (R104 to R106): the load from `a = signed(x[Y])`; outside 0..124 it takes the fault MEM_OUT_OF_RANGE. -/
def execMovRm (x y : Nibble) (b2 b3 : Byte) (s : State) : Host.Outcome State Fault Refusal :=
  let a := dataAddr (s.reg y)
  if admitted a then
    let v := s.loadValue a.toNat
    .next ((s.setReg x v).retire 0x2#4 x y b2 b3 (.load a x v) (nextPc s.pc))
  else
    .next (s.raise .memOutOfRange (.access a (opByte 0x2#4)))

/-- MOV_MR (R108 to R110): the store of x[Y] to `a = signed(x[X])`; outside 0..124 it takes the fault MEM_OUT_OF_RANGE. -/
def execMovMr (x y : Nibble) (b2 b3 : Byte) (s : State) : Host.Outcome State Fault Refusal :=
  let a := dataAddr (s.reg x)
  if admitted a then
    let v := s.reg y
    .next ((s.storeWord a.toNat v).retire 0x3#4 x y b2 b3
      (.store a (storedByte v 0) (storedByte v 1) (storedByte v 2) (storedByte v 3)) (nextPc s.pc))
  else
    .next (s.raise .memOutOfRange (.access a (opByte 0x3#4)))

end Sys2Proof.Machine
end

