-- ==== Sys2Proof/Machine/Alu.lean ====
section
/-! DEFINITION. The meanings of ADD, SUB, AND, OR, XOR, SAL and SAR (spec/43_alu.md). Each writes x[X] and nothing else, and
no flag (R148). -/

namespace Sys2Proof.Machine

/-- ADD (R140). -/
def execAdd (x y : Nibble) (b2 b3 : Byte) (s : State) : Host.Outcome State Fault Refusal :=
  .next (s.writeResult 0x9#4 x y b2 b3 (addWord (s.reg x) (s.reg y)))

/-- SUB (R141). -/
def execSub (x y : Nibble) (b2 b3 : Byte) (s : State) : Host.Outcome State Fault Refusal :=
  .next (s.writeResult 0xA#4 x y b2 b3 (subWord (s.reg x) (s.reg y)))

/-- AND (R142). -/
def execAnd (x y : Nibble) (b2 b3 : Byte) (s : State) : Host.Outcome State Fault Refusal :=
  .next (s.writeResult 0xB#4 x y b2 b3 (s.reg x &&& s.reg y))

/-- OR (R143). -/
def execOr (x y : Nibble) (b2 b3 : Byte) (s : State) : Host.Outcome State Fault Refusal :=
  .next (s.writeResult 0xC#4 x y b2 b3 (s.reg x ||| s.reg y))

/-- XOR (R144). -/
def execXor (x y : Nibble) (b2 b3 : Byte) (s : State) : Host.Outcome State Fault Refusal :=
  .next (s.writeResult 0xD#4 x y b2 b3 (s.reg x ^^^ s.reg y))

/-- SAL (R145): the count is byte 3 (R66). -/
def execSal (x y : Nibble) (b2 b3 : Byte) (s : State) : Host.Outcome State Fault Refusal :=
  .next (s.writeResult 0xE#4 x y b2 b3 (salWord (s.reg x) b3))

/-- SAR (R146): the count is byte 3 (R66). -/
def execSar (x y : Nibble) (b2 b3 : Byte) (s : State) : Host.Outcome State Fault Refusal :=
  .next (s.writeResult 0xF#4 x y b2 b3 (sarWord (s.reg x) b3))

end Sys2Proof.Machine
end

