-- ==== Sys2Proof/Machine/CompareBranch.lean ====
section
/-! DEFINITION. The meanings of CMP, JMP, JG, JL and JE (spec/42_compare_branch.md). -/

namespace Sys2Proof.Machine

/-- A jump of opcode `k` (R87, R123, R126): to the target if `taken`, else to pc + 4; effect BRANCH (R93). -/
def State.branch (s : State) (k x y : Nibble) (off : Half) (taken : Bool) : State :=
  let next := if taken then branchTarget s.pc off else nextPc s.pc
  s.retire k x y (hiByte off) (loByte off) (.branch taken next) next

/-- CMP (R120): all three flags from the indices X and Y; no register is read. -/
def execCmp (x y : Nibble) (b2 b3 : Byte) (s : State) : Host.Outcome State Fault Refusal :=
  .next ((s.setFlags (compareFlags x y)).retire 0x4#4 x y b2 b3 (.flags (compareFlags x y)) (nextPc s.pc))

/-- JMP (R123): always taken. -/
def execJmp (x y : Nibble) (off : Half) (s : State) : Host.Outcome State Fault Refusal :=
  .next (s.branch 0x5#4 x y off true)

/-- JG (R126): taken if greater is set. -/
def execJg (x y : Nibble) (off : Half) (s : State) : Host.Outcome State Fault Refusal :=
  .next (s.branch 0x6#4 x y off s.flags.gt)

/-- JL (R127): taken if less is set. -/
def execJl (x y : Nibble) (off : Half) (s : State) : Host.Outcome State Fault Refusal :=
  .next (s.branch 0x7#4 x y off s.flags.lt)

/-- JE (R128): taken if equal is set. -/
def execJe (x y : Nibble) (off : Half) (s : State) : Host.Outcome State Fault Refusal :=
  .next (s.branch 0x8#4 x y off s.flags.eq)

end Sys2Proof.Machine
end

