-- ==== Sys2Proof/Machine/OutOfRange.lean ====
section
/-! DEFINITION. The skip of an out-of-range opcode byte (R70 of spec/30_encoding.md). -/

namespace Sys2Proof.Machine

/-- UNKNOWN (R70): a trace record of kind UNKNOWN and pc + 4; no register, flag, memory byte or counter changes. -/
def execUnknown (op : Byte) (x y : Nibble) (b2 b3 : Byte) (s : State) : Host.Outcome State Fault Refusal :=
  .next (s.skip op x y b2 b3)

end Sys2Proof.Machine
end

