-- ==== Sys2Proof/Machine/Dispatch.lean ====
section
/-! DEFINITION. Dispatch (R86 of spec/40_engine.md): one arm per decode case of R73. `exec` is the whole of a step after
the fetch: the operation, the count of R85, the trace record of R93 and the next pc of R87 (log 13, DESIGN CHOICE). -/

namespace Sys2Proof.Machine

def exec (i : Instr) (s : State) : Host.Outcome State Fault Refusal :=
  match i with
  | .movRi x y imm => Sys2Proof.Machine.execMovRi x y imm s
  | .movRr x y b2 b3 => Sys2Proof.Machine.execMovRr x y b2 b3 s
  | .movRm x y b2 b3 => Sys2Proof.Machine.execMovRm x y b2 b3 s
  | .movMr x y b2 b3 => Sys2Proof.Machine.execMovMr x y b2 b3 s
  | .cmp x y b2 b3 => Sys2Proof.Machine.execCmp x y b2 b3 s
  | .jmp x y off => Sys2Proof.Machine.execJmp x y off s
  | .jg x y off => Sys2Proof.Machine.execJg x y off s
  | .jl x y off => Sys2Proof.Machine.execJl x y off s
  | .je x y off => Sys2Proof.Machine.execJe x y off s
  | .add x y b2 b3 => Sys2Proof.Machine.execAdd x y b2 b3 s
  | .sub x y b2 b3 => Sys2Proof.Machine.execSub x y b2 b3 s
  | .and x y b2 b3 => Sys2Proof.Machine.execAnd x y b2 b3 s
  | .or x y b2 b3 => Sys2Proof.Machine.execOr x y b2 b3 s
  | .xor x y b2 b3 => Sys2Proof.Machine.execXor x y b2 b3 s
  | .sal x y b2 b3 => Sys2Proof.Machine.execSal x y b2 b3 s
  | .sar x y b2 b3 => Sys2Proof.Machine.execSar x y b2 b3 s
  | .unknown op x y b2 b3 => Sys2Proof.Machine.execUnknown op x y b2 b3 s

end Sys2Proof.Machine
end

