-- ==== Sys2Proof/Machine/Engine.lean ====
section
/-! DEFINITION. The engine's step while RUN (R81 to R86, R97 of spec/40_engine.md), the placing of one word where the
next step fetches it, and the readout at the end of a run (R190 of spec/70_reset_and_hazards.md). -/

namespace Sys2Proof.Machine

/-- The instruction at address `p` (R83): four bytes of the buffer as it stands, in address order (R49), read once. Bytes at
or above LEN are read like any other (R84; log 4, UNVERIFIED). -/
def State.fetch (s : State) (p : Nat) : Instr :=
  decodeWord (s.byte p) (s.byte (p + 1)) (s.byte (p + 2)) (s.byte (p + 3))

/-- One step of a machine whose run state is RUN: the checks in the order of R97 and R164, then fetch and dispatch. -/
def engineStep (s : State) : Host.Outcome State Fault Refusal :=
  if (s.len : Int) ≤ s.pc then
    .next s.enterExit
  else if s.pc < 0 then
    .next (s.raise .pcNegative (.pcValue s.pc))
  else if Config.lastWord < s.pc then
    .next (s.raise .fetchOutOfRange (.pcValue s.pc))
  else
    exec (s.fetch s.pc.toNat) s

/-- `s` loaded with the four bytes `bs` where its next step fetches (log 19, DESIGN CHOICE): they are placed at pc, LEN reaches over
them and the machine is in RUN. Only a pc at which no four bytes of the buffer begin is changed, to 0. -/
def State.loadAtPc (s : State) (bs : List Byte) : State :=
  let p := if 0 ≤ s.pc ∧ s.pc ≤ Config.lastWord then s.pc else 0
  { s with pc := p, mem := Memory.place bs p.toNat s.mem, len := max s.len (p.toNat + 4), run := .run, fault := none }

/-- What the host reads at the end of a run (R190): the 16 counters and the 16 registers, and the flags and the buffer,
which the dump leaves out and the spec lets the host read as well. -/
structure Report where
  counters : Vector Nat 16
  registers : Vector Word 16
  flags : Flags
  buffer : Memory
  deriving DecidableEq, Repr

/-- What the host reads from counter `k` whose exact count is `n` (R34, I7; log 8, DESIGN CHOICE): the count below 2^31, else the free
value. -/
def readCounter (k n : Nat) : Nat := if n < 2 ^ 31 then n else Config.counterReadout k n

/-- The readout (R171, R190): there is one only at EXIT. -/
def State.report (s : State) : Option Report :=
  match s.run with
  | .exit => some ⟨s.hist.mapIdx readCounter, s.regs, s.flags, s.mem⟩
  | .run => none
  | .fault => none

end Sys2Proof.Machine
end

