-- ==== Sys2Proof/Machine/Step.lean ====
section
/-! DEFINITION. One step of the machine (R80 of spec/40_engine.md), and the host's placing of a word where the next step
fetches it. -/

namespace Sys2Proof.Machine

/-- While RUN, the step of R97; in EXIT and FAULT the machine takes no step and stops by name (R80; log 13,
DESIGN CHOICE). One step is one instruction, without time (R194; log 23, UNVERIFIED). -/
def step (s : State) : Host.Outcome State Fault Refusal :=
  match s.run with
  | .run => engineStep s
  | .exit => .fault .afterExit
  | .fault => .fault .afterFault

/-- `s` with the instruction whose bits the opcode table numbers as `w` stored where the next step fetches (log 19, DESIGN CHOICE). -/
def State.withFetchWord (s : State) (nbits w : Nat) : State := s.loadAtPc (tableBytes nbits w)

end Sys2Proof.Machine
end

