-- ==== Sys2Proof/Safety.lean ====
section
/-! DEFINITION. What claims about runs and instructions are stated in: the invariant of the machine, the frames of a step
and which accesses are admitted. -/

namespace Sys2Proof.Machine

/-! ### The invariant -/

/-- What every step keeps: the buffer is in canonical form inside its 128 bytes (R40), LEN is at most 128 (R27), pc is in
the range of R24, and there is a fault record exactly in FAULT (R39, R161). -/
structure State.Inv (s : State) : Prop where
  mem_wf : s.mem.wf
  len_le : s.len ≤ 128
  pc_ge : -32764 ≤ s.pc
  pc_le : s.pc ≤ 32898
  fault_iff : s.run = .fault ↔ s.fault.isSome

/-! ### Frames -/

/-- Every register keeps its value. -/
def SameRegs (s t : State) : Prop := ∀ r : Nibble, t.reg r = s.reg r

/-- Every register but x[x] keeps its value. -/
def SameRegsBut (x : Nibble) (s t : State) : Prop := ∀ r : Nibble, r ≠ x → t.reg r = s.reg r

/-- Every byte of memory keeps its value. -/
def SameMem (s t : State) : Prop := ∀ a : Nat, t.byte a = s.byte a

/-- Every byte of memory outside `p` to `p + 3` keeps its value. -/
def SameMemBut (p : Nat) (s t : State) : Prop := ∀ a : Nat, ¬ (p ≤ a ∧ a ≤ p + 3) → t.byte a = s.byte a

/-- Every counter keeps its value. -/
def SameCounters (s t : State) : Prop := ∀ k : Nibble, t.counter k = s.counter k

/-- Counter `k` counts one more and every other counter keeps its value (R85). -/
def Counted (k : Nibble) (s t : State) : Prop :=
  t.counter k = s.counter k + 1 ∧ ∀ j : Nibble, j ≠ k → t.counter j = s.counter j

/-- LEN, the run state and the fault record keep their values. -/
def SameControl (s t : State) : Prop := t.len = s.len ∧ t.run = s.run ∧ t.fault = s.fault

/-- The step handed the sink exactly one record, `r` (R93). -/
def Emitted (r : Record) (s t : State) : Prop := t.trace = r :: s.trace

/-! ### What a run is -/

/-- `s` is in RUN and its pc is one at which a step fetches (R81 to R84). -/
def State.Fetches (s : State) : Prop := s.run = .run ∧ 0 ≤ s.pc ∧ s.pc < s.len ∧ s.pc ≤ 124

/-- The instruction accesses no byte outside the buffer in `s` (R45): the only condition an instruction can fail (R163). -/
def Admits : Instr → State → Prop
  | .movRi _ _ _, _ => True
  | .movRr _ _ _ _, _ => True
  | .movRm _ y _ _, s => 0 ≤ (s.reg y).toInt ∧ (s.reg y).toInt ≤ 124
  | .movMr x _ _ _, s => 0 ≤ (s.reg x).toInt ∧ (s.reg x).toInt ≤ 124
  | .cmp _ _ _ _, _ => True
  | .jmp _ _ _, _ => True
  | .jg _ _ _, _ => True
  | .jl _ _ _, _ => True
  | .je _ _ _, _ => True
  | .add _ _ _ _, _ => True
  | .sub _ _ _ _, _ => True
  | .and _ _ _ _, _ => True
  | .or _ _ _ _, _ => True
  | .xor _ _ _ _, _ => True
  | .sal _ _ _ _, _ => True
  | .sar _ _ _ _, _ => True
  | .unknown _ _ _ _ _, _ => True

/-- The registers an instruction reads (the column "reads" of R22's table). -/
def readRegs : Instr → List Nibble
  | .movRi _ _ _ => []
  | .movRr _ y _ _ => [y]
  | .movRm _ y _ _ => [y]
  | .movMr x y _ _ => [x, y]
  | .cmp _ _ _ _ => []
  | .jmp _ _ _ => []
  | .jg _ _ _ => []
  | .jl _ _ _ => []
  | .je _ _ _ => []
  | .add x y _ _ => [x, y]
  | .sub x y _ _ => [x, y]
  | .and x y _ _ => [x, y]
  | .or x y _ _ => [x, y]
  | .xor x y _ _ => [x, y]
  | .sal x _ _ _ => [x]
  | .sar x _ _ _ => [x]
  | .unknown _ _ _ _ _ => []

/-- The registers an instruction writes (the column "writes" of R22's table). -/
def writtenRegs : Instr → List Nibble
  | .movRi x _ _ => [x]
  | .movRr x _ _ _ => [x]
  | .movRm x _ _ _ => [x]
  | .movMr _ _ _ _ => []
  | .cmp _ _ _ _ => []
  | .jmp _ _ _ => []
  | .jg _ _ _ => []
  | .jl _ _ _ => []
  | .je _ _ _ => []
  | .add x _ _ _ => [x]
  | .sub x _ _ _ => [x]
  | .and x _ _ _ => [x]
  | .or x _ _ _ => [x]
  | .xor x _ _ _ => [x]
  | .sal x _ _ _ => [x]
  | .sar x _ _ _ => [x]
  | .unknown _ _ _ _ _ => []

/-- Where an instruction that does not fault sends the pc (R87). -/
def pcAfter (i : Instr) (s : State) : Int :=
  match i with
  | .jmp _ _ off => s.pc + off.toInt + 4
  | .jg _ _ off => if s.flags.gt = true then s.pc + off.toInt + 4 else s.pc + 4
  | .jl _ _ off => if s.flags.lt = true then s.pc + off.toInt + 4 else s.pc + 4
  | .je _ _ off => if s.flags.eq = true then s.pc + off.toInt + 4 else s.pc + 4
  | .movRi _ _ _ => s.pc + 4
  | .movRr _ _ _ _ => s.pc + 4
  | .movRm _ _ _ _ => s.pc + 4
  | .movMr _ _ _ _ => s.pc + 4
  | .cmp _ _ _ _ => s.pc + 4
  | .add _ _ _ _ => s.pc + 4
  | .sub _ _ _ _ => s.pc + 4
  | .and _ _ _ _ => s.pc + 4
  | .or _ _ _ _ => s.pc + 4
  | .xor _ _ _ _ => s.pc + 4
  | .sal _ _ _ _ => s.pc + 4
  | .sar _ _ _ _ => s.pc + 4
  | .unknown _ _ _ _ _ => s.pc + 4

/-- Two states differ in the sink's records at most. -/
def SameButTrace (s t : State) : Prop := t = { s with trace := t.trace }

/-- Both instructions run in `s`, with next states that differ in the sink's records at most. -/
def SameEffect (i j : Instr) (s : State) : Prop :=
  ∃ t u, exec i s = .next t ∧ exec j s = .next u ∧ SameButTrace t u

end Sys2Proof.Machine
end

