-- ==== Sys2Proof/Certificates/Slice0/Obligations.lean ====
section
/-! DEFINITION. The statements about PQP CORE. Each docstring names the rule or the section of spec/ it formalises, and the
log entry where it rests on a choice. `Host.Outcome.next t` is written `.next t`. -/

open Sys2Proof Sys2Proof.Machine

/-! ### Encoding (spec/30_encoding.md) -/

/-- R60 to R69: decoding the word of any instruction gives the instruction back, with every operand, and leaves the bytes
after it. -/
def Obligations.EncodedInstrDecodesBack : Prop :=
  ∀ (i : Instr) (rest : List Byte), i.wellFormed = true → decode (encode i ++ rest) = .ok (i, rest)

/-- R73: decoding is total on four bytes, and gives exactly one of the 17 cases: the operation of its opcode byte, or UNKNOWN
for 0x10 and above; no bit of the word is lost. -/
def Obligations.EveryWordIsOneInstr : Prop :=
  ∀ (op ob b2 b3 : Byte) (rest : List Byte), ∃ i : Instr,
    decode (op :: ob :: b2 :: b3 :: rest) = .ok (i, rest) ∧ i.wellFormed = true ∧ i.opcode = op ∧
    encode i = [op, ob, b2, b3] ∧
    (0x10 ≤ op.toNat ↔ ∃ (x y : Nibble) (c d : Byte), i = .unknown op x y c d)

/-- R63 to R69, section 3 Opcode map: which operation each opcode byte selects and where its operands stand. Rests on the
spec's decision D1 for the byte order of imm16 and off16 (log 1). -/
def Obligations.OpcodeSelectsOperation : Prop :=
  ∀ (x y : Nibble) (b2 b3 : Byte),
    decodeWord 0x00#8 (x ++ y) b2 b3 = .movRi x y (b2 ++ b3) ∧
    decodeWord 0x01#8 (x ++ y) b2 b3 = .movRr x y b2 b3 ∧
    decodeWord 0x02#8 (x ++ y) b2 b3 = .movRm x y b2 b3 ∧
    decodeWord 0x03#8 (x ++ y) b2 b3 = .movMr x y b2 b3 ∧
    decodeWord 0x04#8 (x ++ y) b2 b3 = .cmp x y b2 b3 ∧
    decodeWord 0x05#8 (x ++ y) b2 b3 = .jmp x y (b2 ++ b3) ∧
    decodeWord 0x06#8 (x ++ y) b2 b3 = .jg x y (b2 ++ b3) ∧
    decodeWord 0x07#8 (x ++ y) b2 b3 = .jl x y (b2 ++ b3) ∧
    decodeWord 0x08#8 (x ++ y) b2 b3 = .je x y (b2 ++ b3) ∧
    decodeWord 0x09#8 (x ++ y) b2 b3 = .add x y b2 b3 ∧
    decodeWord 0x0A#8 (x ++ y) b2 b3 = .sub x y b2 b3 ∧
    decodeWord 0x0B#8 (x ++ y) b2 b3 = .and x y b2 b3 ∧
    decodeWord 0x0C#8 (x ++ y) b2 b3 = .or x y b2 b3 ∧
    decodeWord 0x0D#8 (x ++ y) b2 b3 = .xor x y b2 b3 ∧
    decodeWord 0x0E#8 (x ++ y) b2 b3 = .sal x y b2 b3 ∧
    decodeWord 0x0F#8 (x ++ y) b2 b3 = .sar x y b2 b3

/-- The eight words of the table of section L2.1 of spec/95_test_vectors.md, a word of each format: a sanity statement. The
fields -2, -36 and -32768 of its MOV_RI, JMP and JE words rest on the spec's decision D1 for the byte order of imm16 and off16
(log 1). -/
def Obligations.VectorWordsDecode : Prop :=
  decodeWord 0x00#8 0x3F#8 0xFF#8 0xFE#8 = .movRi 3 15 (BitVec.ofInt 16 (-2)) ∧
  decodeWord 0x05#8 0x00#8 0xFF#8 0xDC#8 = .jmp 0 0 (BitVec.ofInt 16 (-36)) ∧
  decodeWord 0x0E#8 0x50#8 0x00#8 0x18#8 = .sal 5 0 0 24 ∧
  decodeWord 0x0F#8 0x00#8 0x01#8 0x02#8 = .sar 0 0 1 2 ∧
  decodeWord 0x04#8 0xF0#8 0x00#8 0x00#8 = .cmp 15 0 0 0 ∧
  decodeWord 0x1F#8 0x00#8 0x00#8 0x00#8 = .unknown 0x1F 0 0 0 0 ∧
  decodeWord 0x10#8 0x12#8 0x34#8 0x56#8 = .unknown 0x10 1 2 0x34 0x56 ∧
  decodeWord 0x08#8 0x00#8 0x80#8 0x00#8 = .je 0 0 (BitVec.ofInt 16 (-32768))

/-- R68, rests on the spec's decision D23 (log 20): a field the format does not use changes nothing but the sink's records. Of
the records, the whole field `trace`, it says nothing: `EveryStepHandsOneRecord` and `RecordedEffectIsTheEffect` do. -/
def Obligations.IgnoredFieldsChangeNothing : Prop :=
  ∀ (x y x' y' : Nibble) (imm : Half) (b2 b3 c2 c3 : Byte) (op : Byte) (s : State),
    SameEffect (.movRi x y imm) (.movRi x y' imm) s ∧
    SameEffect (.movRr x y b2 b3) (.movRr x y c2 c3) s ∧
    SameEffect (.movRm x y b2 b3) (.movRm x y c2 c3) s ∧
    SameEffect (.movMr x y b2 b3) (.movMr x y c2 c3) s ∧
    SameEffect (.cmp x y b2 b3) (.cmp x y c2 c3) s ∧
    SameEffect (.jmp x y imm) (.jmp x' y' imm) s ∧
    SameEffect (.jg x y imm) (.jg x' y' imm) s ∧
    SameEffect (.jl x y imm) (.jl x' y' imm) s ∧
    SameEffect (.je x y imm) (.je x' y' imm) s ∧
    SameEffect (.add x y b2 b3) (.add x y c2 c3) s ∧
    SameEffect (.sub x y b2 b3) (.sub x y c2 c3) s ∧
    SameEffect (.and x y b2 b3) (.and x y c2 c3) s ∧
    SameEffect (.or x y b2 b3) (.or x y c2 c3) s ∧
    SameEffect (.xor x y b2 b3) (.xor x y c2 c3) s ∧
    SameEffect (.sal x y b2 b3) (.sal x y' c2 b3) s ∧
    SameEffect (.sar x y b2 b3) (.sar x y' c2 b3) s ∧
    SameEffect (.unknown op x y b2 b3) (.unknown op x' y' c2 c3) s

/-! ### Data movement (spec/41_data_movement.md) -/

/-- R101: after `MOV Rr, #imm` for any r, the register holds exactly imm, interpreted as signed 16-bit and sign-extended;
with the instruction's frame. -/
def Obligations.MovImmediateSignExtends : Prop :=
  ∀ (x y : Nibble) (imm : Half) (s : State), ∃ t, exec (.movRi x y imm) s = .next t ∧
    (t.reg x).toInt = imm.toInt ∧
    SameRegsBut x s t ∧ t.flags = s.flags ∧ SameMem s t ∧ Counted 0x0 s t ∧ SameControl s t ∧ t.pc = s.pc + 4

/-- R102: MOV reg-reg copies all 32 bits of x[Y] to x[X], whatever the ignored bytes; with X = Y every register is
unchanged, and the step still counts and advances. -/
def Obligations.MovRegisterCopies : Prop :=
  ∀ (x y : Nibble) (b2 b3 : Byte) (s : State),
    decodeWord 0x01#8 (x ++ y) b2 b3 = .movRr x y b2 b3 ∧
    ∃ t, exec (.movRr x y b2 b3) s = .next t ∧
      t.reg x = s.reg y ∧ (x = y → SameRegs s t) ∧
      SameRegsBut x s t ∧ t.flags = s.flags ∧ SameMem s t ∧ Counted 0x1 s t ∧ SameControl s t ∧ t.pc = s.pc + 4

/-- R104 to R106, rests on the spec's decisions D12 and D13 (logs 11, 12): an admitted load composes the four bytes at
a = signed(x[Y]), read as unsigned, by shifts of 12, 8, 4 and 0 joined by OR. The address is read before x[X] is written. -/
def Obligations.LoadComposesNibbles : Prop :=
  ∀ (x y : Nibble) (b2 b3 : Byte) (s : State), 0 ≤ (s.reg y).toInt → (s.reg y).toInt ≤ 124 →
    ∃ t, exec (.movRm x y b2 b3) s = .next t ∧
      (t.reg x).toNat =
        ((s.byte (s.reg y).toInt.toNat).toNat <<< 12) ||| ((s.byte ((s.reg y).toInt.toNat + 1)).toNat <<< 8) |||
        ((s.byte ((s.reg y).toInt.toNat + 2)).toNat <<< 4) ||| (s.byte ((s.reg y).toInt.toNat + 3)).toNat ∧
      SameRegsBut x s t ∧ t.flags = s.flags ∧ SameMem s t ∧ Counted 0x2 s t ∧ SameControl s t ∧ t.pc = s.pc + 4

/-- R107, the spec's own inference from R106, rests on the spec's decision D12 (log 11), that the bytes are read as unsigned:
an admitted load writes a value in 0..0x000FFFFF, and bits 31:20 of the result are zero. -/
def Obligations.LoadedValueHasTwentyBits : Prop :=
  ∀ (x y : Nibble) (b2 b3 : Byte) (s : State), 0 ≤ (s.reg y).toInt → (s.reg y).toInt ≤ 124 →
    ∃ t, exec (.movRm x y b2 b3) s = .next t ∧ (t.reg x).toNat ≤ 0x000FFFFF ∧ 0 ≤ (t.reg x).toInt ∧
      ∀ k, 20 ≤ k → (t.reg x).getLsbD k = false

/-- R46 and R110: an admitted store writes x[Y] to a..a+3, a = signed(x[X]), most-significant byte first; no other byte, no
register, no flag changes and LEN stays, even when a is at or above it. -/
def Obligations.StoreWritesBigEndian : Prop :=
  ∀ (x y : Nibble) (b2 b3 : Byte) (s : State), 0 ≤ (s.reg x).toInt → (s.reg x).toInt ≤ 124 →
    ∃ t, exec (.movMr x y b2 b3) s = .next t ∧
      t.byte (dataAddr (s.reg x)).toNat = (s.reg y).extractLsb 31 24 ∧
      t.byte ((dataAddr (s.reg x)).toNat + 1) = (s.reg y).extractLsb 23 16 ∧
      t.byte ((dataAddr (s.reg x)).toNat + 2) = (s.reg y).extractLsb 15 8 ∧
      t.byte ((dataAddr (s.reg x)).toNat + 3) = (s.reg y).extractLsb 7 0 ∧
      SameMemBut (dataAddr (s.reg x)).toNat s t ∧
      SameRegs s t ∧ t.flags = s.flags ∧ Counted 0x3 s t ∧ SameControl s t ∧ t.pc = s.pc + 4

/-- R105, R109, R89, rests on the spec's decisions D13 and D16 (logs 12, 13): a load or store whose address lies outside
0..124 takes the fault MEM_OUT_OF_RANGE with the address and the opcode, and commits nothing. -/
def Obligations.AccessOutsideBufferFaults : Prop :=
  ∀ (x y : Nibble) (b2 b3 : Byte) (s : State),
    ((s.reg y).toInt < 0 ∨ 124 < (s.reg y).toInt →
      exec (.movRm x y b2 b3) s = .next { s with
        run := .fault
        fault := some ⟨.memOutOfRange, s.pc, .access (s.reg y).toInt 0x02#8⟩
        trace := .fault .memOutOfRange s.pc (.access (s.reg y).toInt 0x02#8) :: s.trace }) ∧
    ((s.reg x).toInt < 0 ∨ 124 < (s.reg x).toInt →
      exec (.movMr x y b2 b3) s = .next { s with
        run := .fault
        fault := some ⟨.memOutOfRange, s.pc, .access (s.reg x).toInt 0x03#8⟩
        trace := .fault .memOutOfRange s.pc (.access (s.reg x).toInt 0x03#8) :: s.trace })

/-- R112, the spec's own inference from R106 and R110, rests on the spec's decision D12 (log 11), that the load reads bytes as
unsigned (the bound 255 comes from it): a store of v = x[Y] to the address in x[X], then a load of that address into x[Z],
gives the composition of v's four bytes, which is v exactly when 0 <= signed(v) <= 255. -/
def Obligations.StoreThenLoadIsIdentityOnBytesOnly : Prop :=
  ∀ (x y z : Nibble) (b2 b3 c2 c3 : Byte) (s : State), 0 ≤ (s.reg x).toInt → (s.reg x).toInt ≤ 124 →
    ∃ t u, exec (.movMr x y b2 b3) s = .next t ∧ exec (.movRm z x c2 c3) t = .next u ∧
      (u.reg z).toNat =
        ((((s.reg y).toNat >>> 24) % 256) <<< 12) ||| ((((s.reg y).toNat >>> 16) % 256) <<< 8) |||
        ((((s.reg y).toNat >>> 8) % 256) <<< 4) ||| ((s.reg y).toNat % 256) ∧
      (u.reg z = s.reg y ↔ 0 ≤ (s.reg y).toInt ∧ (s.reg y).toInt ≤ 255)

/-- R59 and R193: when a store ends with the machine about to fetch the very word it wrote, the next step runs the
instruction of the stored bytes, most-significant byte as the opcode. Rests on the spec's decisions D3 and D4 (logs 3, 4) where
that word is unaligned or reaches past LEN. -/
def Obligations.StoredWordIsNextInstr : Prop :=
  ∀ (x y : Nibble) (b2 b3 : Byte) (s t : State), 0 ≤ (s.reg x).toInt → (s.reg x).toInt ≤ 124 →
    exec (.movMr x y b2 b3) s = .next t → t.Fetches → t.pc = (s.reg x).toInt →
    step t = exec (decodeWord ((s.reg y).extractLsb 31 24) ((s.reg y).extractLsb 23 16)
      ((s.reg y).extractLsb 15 8) ((s.reg y).extractLsb 7 0)) t

/-! ### Compare and control transfer (spec/42_compare_branch.md) -/

/-- R120 and R122, rests on the spec's decision D15 (log 15): CMP compares the indices X and Y themselves, writes all three
flags, and leaves exactly one set; no register is read or written. -/
def Obligations.CompareSetsFlagsFromIndices : Prop :=
  ∀ (x y : Nibble) (b2 b3 : Byte) (s : State), ∃ t, exec (.cmp x y b2 b3) s = .next t ∧
    (t.flags.gt = true ↔ y.toNat < x.toNat) ∧ (t.flags.lt = true ↔ x.toNat < y.toNat) ∧ (t.flags.eq = true ↔ x = y) ∧
    (t.flags = ⟨true, false, false⟩ ∨ t.flags = ⟨false, true, false⟩ ∨ t.flags = ⟨false, false, true⟩) ∧
    SameRegs s t ∧ SameMem s t ∧ Counted 0x4 s t ∧ SameControl s t ∧ t.pc = s.pc + 4

/-- R131: `CMP X Y` followed immediately by JG, JL or JE takes the branch if and only if X > Y, X < Y, X = Y for the literal
nibbles, whatever the registers hold. -/
def Obligations.CompareThenBranchTakenIff : Prop :=
  ∀ (x y x' y' : Nibble) (b2 b3 : Byte) (off : Half) (s : State),
    ∃ t u v w, exec (.cmp x y b2 b3) s = .next t ∧
      exec (.jg x' y' off) t = .next u ∧ exec (.jl x' y' off) t = .next v ∧ exec (.je x' y' off) t = .next w ∧
      u.pc = (if y.toNat < x.toNat then t.pc + off.toInt + 4 else t.pc + 4) ∧
      v.pc = (if x.toNat < y.toNat then t.pc + off.toInt + 4 else t.pc + 4) ∧
      w.pc = (if x.toNat = y.toNat then t.pc + off.toInt + 4 else t.pc + 4)

/-- R123 and R124: JMP goes to pc + off16 + 4, an exact sum (offset 0 falls through, offset -4 stays), and changes no
register, flag or byte. -/
def Obligations.JumpGoesToTarget : Prop :=
  ∀ (x y : Nibble) (off : Half) (s : State), ∃ t, exec (.jmp x y off) s = .next t ∧
    t.pc = s.pc + off.toInt + 4 ∧ (off = 0#16 → t.pc = s.pc + 4) ∧ (off = 0xFFFC#16 → t.pc = s.pc) ∧
    SameRegs s t ∧ t.flags = s.flags ∧ SameMem s t ∧ Counted 0x5 s t ∧ SameControl s t

/-- R126, R127, R128: JG, JL and JE make JMP's pc update when their own flag is set and fall through otherwise; they change
no register, flag or byte. -/
def Obligations.ConditionalJumpsReadTheirFlag : Prop :=
  ∀ (x y : Nibble) (off : Half) (s : State),
    (∃ t, exec (.jg x y off) s = .next t ∧
      t.pc = (if s.flags.gt = true then s.pc + off.toInt + 4 else s.pc + 4) ∧
      SameRegs s t ∧ t.flags = s.flags ∧ SameMem s t ∧ Counted 0x6 s t ∧ SameControl s t) ∧
    (∃ t, exec (.jl x y off) s = .next t ∧
      t.pc = (if s.flags.lt = true then s.pc + off.toInt + 4 else s.pc + 4) ∧
      SameRegs s t ∧ t.flags = s.flags ∧ SameMem s t ∧ Counted 0x7 s t ∧ SameControl s t) ∧
    (∃ t, exec (.je x y off) s = .next t ∧
      t.pc = (if s.flags.eq = true then s.pc + off.toInt + 4 else s.pc + 4) ∧
      SameRegs s t ∧ t.flags = s.flags ∧ SameMem s t ∧ Counted 0x8 s t ∧ SameControl s t)

/-- R87: a JMP, or a JG, JL or JE whose flag is set, sets pc to pc + imm16 + 4 and takes no further advance; every other
instruction that does not fault, a jump not taken and an out-of-range opcode included, sets pc to pc + 4. -/
def Obligations.NextPcOfEveryInstr : Prop :=
  ∀ (i : Instr) (s : State), Admits i s → ∃ t, exec i s = .next t ∧ t.pc = pcAfter i s ∧ t.run = s.run

/-- R92 and R124: a step at `JMP -4` leaves the machine in RUN at the same pc, about to fetch the same instruction. -/
def Obligations.SelfJumpStaysInPlace : Prop :=
  ∀ (x y : Nibble) (s : State), s.Fetches → s.fetch s.pc.toNat = .jmp x y 0xFFFC#16 →
    ∃ t, step s = .next t ∧ t.Fetches ∧ t.pc = s.pc ∧ t.fetch t.pc.toNat = .jmp x y 0xFFFC#16

/-- R125: where a jump lands decides the step after it: EXIT at or above LEN, the fault PC_NEGATIVE below 0, a fetch at the
target between (pc + 3 above 127 left to R84). Rests on the spec's decision D14 (log 12) below 0. -/
def Obligations.JumpTargetDecidesNextStep : Prop :=
  ∀ (x y : Nibble) (off : Half) (s t : State), s.run = .run → exec (.jmp x y off) s = .next t →
    ((s.len : Int) ≤ s.pc + off.toInt + 4 → ∃ u, step t = .next u ∧ u.run = .exit) ∧
    (s.pc + off.toInt + 4 < 0 →
      ∃ u, step t = .next u ∧ u.run = .fault ∧
        u.fault = some ⟨.pcNegative, s.pc + off.toInt + 4, .pcValue (s.pc + off.toInt + 4)⟩) ∧
    (0 ≤ s.pc + off.toInt + 4 → s.pc + off.toInt + 4 < s.len → s.pc + off.toInt + 4 ≤ 124 →
      step t = exec (t.fetch (s.pc + off.toInt + 4).toNat) t)

/-- R74, rests on the spec's decision D17 (log 24): a JMP assembled for a label goes to that label. -/
def Obligations.AssembledJumpReachesLabel : Prop :=
  ∀ (x y : Nibble) (off : Half) (l : Int) (s : State), labelOffset s.pc l = some off →
    ∃ t, exec (.jmp x y off) s = .next t ∧ t.pc = l

/-! ### Arithmetic, logic and shifts (spec/43_alu.md) -/

/-- R140, R141, R147, rests on the spec's decision D9 (log 9): ADD and SUB keep the exact result mod 2^32, the same pattern
for signed and unsigned operands. -/
def Obligations.AddSubWrap : Prop :=
  ∀ (x y : Nibble) (b2 b3 : Byte) (s : State),
    (∃ t, exec (.add x y b2 b3) s = .next t ∧
      (t.reg x).toInt = ((s.reg x).toInt + (s.reg y).toInt).bmod (2 ^ 32) ∧
      (t.reg x).toNat = ((s.reg x).toNat + (s.reg y).toNat) % 2 ^ 32 ∧
      SameRegsBut x s t ∧ t.flags = s.flags ∧ SameMem s t ∧ Counted 0x9 s t ∧ SameControl s t ∧ t.pc = s.pc + 4) ∧
    (∃ t, exec (.sub x y b2 b3) s = .next t ∧
      (t.reg x).toInt = ((s.reg x).toInt - (s.reg y).toInt).bmod (2 ^ 32) ∧
      ((t.reg x).toNat : Int) = ((s.reg x).toNat - (s.reg y).toNat : Int) % 2 ^ 32 ∧
      SameRegsBut x s t ∧ t.flags = s.flags ∧ SameMem s t ∧ Counted 0xA s t ∧ SameControl s t ∧ t.pc = s.pc + 4)

/-- R142, R143, R144: AND, OR and XOR work bit by bit on 32 bits, whatever the ignored bytes; with X = Y, AND and OR leave
the register and XOR clears it. -/
def Obligations.BitwiseOperations : Prop :=
  ∀ (x y : Nibble) (b2 b3 : Byte) (s : State),
    (decodeWord 0x0B#8 (x ++ y) b2 b3 = .and x y b2 b3 ∧
      ∃ t, exec (.and x y b2 b3) s = .next t ∧
        (∀ k, k < 32 → (t.reg x).getLsbD k = ((s.reg x).getLsbD k && (s.reg y).getLsbD k)) ∧
        (x = y → t.reg x = s.reg x) ∧ (s.reg y = 0#32 → t.reg x = 0#32) ∧
        SameRegsBut x s t ∧ t.flags = s.flags ∧ SameMem s t ∧ Counted 0xB s t ∧ SameControl s t ∧ t.pc = s.pc + 4) ∧
    (decodeWord 0x0C#8 (x ++ y) b2 b3 = .or x y b2 b3 ∧
      ∃ t, exec (.or x y b2 b3) s = .next t ∧
        (∀ k, k < 32 → (t.reg x).getLsbD k = ((s.reg x).getLsbD k || (s.reg y).getLsbD k)) ∧
        (x = y → t.reg x = s.reg x) ∧
        SameRegsBut x s t ∧ t.flags = s.flags ∧ SameMem s t ∧ Counted 0xC s t ∧ SameControl s t ∧ t.pc = s.pc + 4) ∧
    (decodeWord 0x0D#8 (x ++ y) b2 b3 = .xor x y b2 b3 ∧
      ∃ t, exec (.xor x y b2 b3) s = .next t ∧
        (∀ k, k < 32 → (t.reg x).getLsbD k = ((s.reg x).getLsbD k ^^ (s.reg y).getLsbD k)) ∧
        (x = y → t.reg x = 0#32) ∧
        SameRegsBut x s t ∧ t.flags = s.flags ∧ SameMem s t ∧ Counted 0xD s t ∧ SameControl s t ∧ t.pc = s.pc + 4)

/-- R145 and R149, rests on the spec's decisions D10 and D11 (log 10): SAL multiplies the pattern by 2^n and keeps 32 bits,
for every count n = 0..255; 32 or more gives 0. -/
def Obligations.ShiftLeftDropsHighBits : Prop :=
  ∀ (x y : Nibble) (b2 b3 : Byte) (s : State), ∃ t, exec (.sal x y b2 b3) s = .next t ∧
    (t.reg x).toNat = (s.reg x).toNat * 2 ^ b3.toNat % 2 ^ 32 ∧ (32 ≤ b3.toNat → t.reg x = 0#32) ∧
    SameRegsBut x s t ∧ t.flags = s.flags ∧ SameMem s t ∧ Counted 0xE s t ∧ SameControl s t ∧ t.pc = s.pc + 4

/-- R146, rests on the spec's decision D10 (log 10) and its general knowledge K2 (log 22): SAR is the floor division by
2^min(n, 31); for a count of 32 or more it is the sign fill. -/
def Obligations.ShiftRightIsFloorDivision : Prop :=
  ∀ (x y : Nibble) (b2 b3 : Byte) (s : State), ∃ t, exec (.sar x y b2 b3) s = .next t ∧
    (t.reg x).toInt = (s.reg x).toInt.fdiv (2 ^ min b3.toNat 31) ∧
    (32 ≤ b3.toNat → t.reg x = if 0 ≤ (s.reg x).toInt then 0x00000000#32 else 0xFFFFFFFF#32) ∧
    SameRegsBut x s t ∧ t.flags = s.flags ∧ SameMem s t ∧ Counted 0xF s t ∧ SameControl s t ∧ t.pc = s.pc + 4

/-- R90, for the forms with X = Y of ADD, SUB, the store and the load (R140, R141, R110, R106): operands are read before results
are written, so ADD doubles mod 2^32, SUB clears, an admitted store stores its own address, and an admitted load reads at the
old value of the register it overwrites. The wrap of ADD rests on the spec's decision D9 (log 9), and the value loaded
on its decision D12 (log 11). -/
def Obligations.SameRegisterTwiceReadsFirst : Prop :=
  ∀ (r : Nibble) (b2 b3 : Byte) (s : State),
    (∃ t, exec (.add r r b2 b3) s = .next t ∧ (t.reg r).toNat = 2 * (s.reg r).toNat % 2 ^ 32) ∧
    (∃ t, exec (.sub r r b2 b3) s = .next t ∧ t.reg r = 0#32) ∧
    (0 ≤ (s.reg r).toInt → (s.reg r).toInt ≤ 124 →
      (∃ t, exec (.movMr r r b2 b3) s = .next t ∧ SameRegs s t ∧
        (∀ k, k < 3 → t.byte ((s.reg r).toInt.toNat + k) = 0x00#8) ∧
        (t.byte ((s.reg r).toInt.toNat + 3)).toNat = (s.reg r).toInt.toNat) ∧
      (∃ t, exec (.movRm r r b2 b3) s = .next t ∧ t.reg r = s.loadValue (s.reg r).toInt.toNat))

/-! ### Registers and flags (spec/10_state.md) -/

/-- R22: registers change only by instructions that name a destination register, and each instruction reads only the
registers of its row: another register's value reaches nothing but itself. -/
def Obligations.RegistersReadAndWrittenByRow : Prop :=
  ∀ (i : Instr) (s t : State), exec i s = .next t →
    (∀ r, r ∉ writtenRegs i → t.reg r = s.reg r) ∧
    (∀ (r : Nibble) (v : Word), r ∉ readRegs i →
      ∃ u, exec i (s.setReg r v) = .next u ∧ u.setReg r 0#32 = t.setReg r 0#32)

/-- R29 and R148: only CMP writes the flags, all three at once; only JG, JL and JE read them, each its own flag. -/
def Obligations.FlagsWrittenByCompareReadByJumps : Prop :=
  (∀ (i : Instr) (s t : State), (∀ x y b2 b3, i ≠ .cmp x y b2 b3) → exec i s = .next t → t.flags = s.flags) ∧
  (∀ (x y : Nibble) (b2 b3 : Byte) (s : State) (f : Flags),
    exec (.cmp x y b2 b3) (s.setFlags f) = exec (.cmp x y b2 b3) s) ∧
  (∀ (i : Instr) (s t : State) (f : Flags), exec i s = .next t →
    (∀ x y off, i = .jg x y off → f.gt = s.flags.gt) → (∀ x y off, i = .jl x y off → f.lt = s.flags.lt) →
    (∀ x y off, i = .je x y off → f.eq = s.flags.eq) →
    ∃ u, exec i (s.setFlags f) = .next u ∧ u.setFlags f = t.setFlags f)

/-- R121: no instruction can branch on a register's value: where both do not fault, the next pc and the next flags depend on
the instruction, the pc and the flags alone. Rests on the spec's decision D15 (log 15). -/
def Obligations.ControlIsIndependentOfRegisters : Prop :=
  ∀ (i : Instr) (s s' t t' : State), s.pc = s'.pc → s.flags = s'.flags → Admits i s → Admits i s' →
    exec i s = .next t → exec i s' = .next t' → t.pc = t'.pc ∧ t.flags = t'.flags

/-! ### Out-of-range opcodes and counters -/

/-- R70, rests on the spec's decision D2 (log 2): an out-of-range opcode is skipped: pc + 4 and one record of kind UNKNOWN with
its opcode byte; no register, flag, byte or counter changes. -/
def Obligations.OutOfRangeOpcodeIsSkipped : Prop :=
  ∀ (op : Byte) (x y : Nibble) (b2 b3 : Byte) (s : State), ∃ t, exec (.unknown op x y b2 b3) s = .next t ∧
    t.pc = s.pc + 4 ∧ SameRegs s t ∧ t.flags = s.flags ∧ SameMem s t ∧ SameCounters s t ∧ SameControl s t ∧
    Emitted (.trace s.pc op x y b2 b3 .unknown) s t

/-- R85 and R32, rests on the spec's decision D2 (log 2): an executed instruction of opcode 0x00 to 0x0F adds 1 to the counter
of its own opcode byte and to no other; an out-of-range opcode adds to none. -/
def Obligations.CounterOfTheOpcodeCounts : Prop :=
  ∀ (i : Instr) (s : State), i.wellFormed = true → Admits i s → ∃ t, exec i s = .next t ∧
    ∀ k : Nibble, t.counter k = s.counter k + (if k.toNat = i.opcode.toNat then 1 else 0)

/-- R168, rests on the spec's decision D2 (log 2): a step adds 1 to the sum of the counters exactly when it executes a word
whose opcode byte is below 0x10, so the sum is the number of executed in-range instructions. -/
def Obligations.CounterSumCountsExecuted : Prop :=
  ∀ s t : State, step s = .next t →
    t.hist.toList.sum = s.hist.toList.sum +
      (if t.run = .run ∧ (s.byte s.pc.toNat).toNat < 0x10 then 1 else 0)

/-! ### The engine (spec/40_engine.md, spec/60_exceptions.md) -/

/-- R83 and R86: when the four bytes at pc decode to an instruction, a step of a machine in RUN whose pc is in the program
and not past the last word is exactly that instruction's `exec`; nothing else is added around it. Rests on the spec's decisions
D3 and D4 (logs 3, 4) where that word is unaligned or reaches past LEN. -/
def Obligations.StepRunsDecodedInstr : Prop :=
  ∀ (s : State) (i : Instr), s.run = .run → 0 ≤ s.pc → s.pc < s.len → s.pc ≤ 124 →
    decode [s.byte s.pc.toNat, s.byte (s.pc.toNat + 1), s.byte (s.pc.toNat + 2), s.byte (s.pc.toNat + 3)] = .ok (i, []) →
    step s = exec i s

/-- R81: a step with pc at or above LEN sets EXIT, emits an exit record and changes nothing else, whatever the bytes at pc;
and EXIT is terminal. -/
def Obligations.ExitAtOrPastLength : Prop :=
  ∀ s : State, s.run = .run → (s.len : Int) ≤ s.pc →
    ∃ t, step s = .next t ∧ t.run = .exit ∧ (∃ addr, Emitted (.exit addr) s t) ∧
      t.regs = s.regs ∧ t.pc = s.pc ∧ t.flags = s.flags ∧ t.hist = s.hist ∧ t.mem = s.mem ∧ t.len = s.len ∧
      t.fault = s.fault ∧ ∀ u, step t ≠ .next u

/-- R82, R84, R89, rests on the spec's decisions D4, D14 and D16 (logs 4, 12, 13): a step at a pc below 0 takes PC_NEGATIVE,
a step in the program with pc + 3 above 127 takes FETCH_OUT_OF_RANGE, whatever the opcode; neither commits anything. -/
def Obligations.FetchFaults : Prop :=
  ∀ s : State, s.run = .run → s.pc < s.len →
    (s.pc < 0 → step s = .next { s with
      run := .fault
      fault := some ⟨.pcNegative, s.pc, .pcValue s.pc⟩
      trace := .fault .pcNegative s.pc (.pcValue s.pc) :: s.trace }) ∧
    (0 ≤ s.pc → 127 < s.pc + 3 → step s = .next { s with
      run := .fault
      fault := some ⟨.fetchOutOfRange, s.pc, .pcValue s.pc⟩
      trace := .fault .fetchOutOfRange s.pc (.pcValue s.pc) :: s.trace })

/-- R35 and R80; the names of the stops are the model's (log 13): in EXIT and in FAULT the machine takes no step. -/
def Obligations.TerminalStatesTakeNoStep : Prop :=
  ∀ s : State, (s.run = .exit → step s = .fault .afterExit) ∧ (s.run = .fault → step s = .fault .afterFault)

/-- R89 and R161, rests on the spec's decision D16 (log 13): a step that ends in FAULT leaves registers, flags, counters,
memory, pc and LEN as before, records (cause, pc, info) and emits that as its one record. -/
def Obligations.FaultCommitsNothing : Prop :=
  ∀ s t : State, step s = .next t → t.run = .fault →
    t.regs = s.regs ∧ t.pc = s.pc ∧ t.flags = s.flags ∧ t.hist = s.hist ∧ t.mem = s.mem ∧ t.len = s.len ∧
    ∃ c info, t.fault = some ⟨c, s.pc, info⟩ ∧ Emitted (.fault c s.pc info) s t

/-- R162, R163, R164, rests on the spec's decisions D4, D13, D14 (logs 4, 12): a step of a machine in RUN faults exactly when
pc is below LEN and is negative, or past the last word, or fetches a load or store that is not admitted. -/
def Obligations.FaultsExactlyWhen : Prop :=
  ∀ s : State, s.run = .run →
    ((∃ t, step s = .next t ∧ t.run = .fault) ↔
      s.pc < s.len ∧ (s.pc < 0 ∨ 124 < s.pc ∨ ¬ Admits (s.fetch s.pc.toNat) s))

/-- R15, R160, R163, in the model's terms (log 13): every instruction answers a next state in every state, and so does every
step of a machine in RUN; and a step leaves RUN only for EXIT or FAULT. -/
def Obligations.EveryOperationIsTotal : Prop :=
  (∀ (i : Instr) (s : State), ∃ t, exec i s = .next t) ∧
  (∀ s : State, (∃ t, step s = .next t) ↔ s.run = .run)

/-- R27 and R55, over the whole machine: no step changes LEN, and memory changes only by a fetched store, inside the four
bytes of its own address. -/
def Obligations.MemoryChangesOnlyByStore : Prop :=
  ∀ s t : State, step s = .next t →
    t.len = s.len ∧
    ∀ a : Nat, t.byte a ≠ s.byte a →
      ∃ x y b2 b3, s.fetch s.pc.toNat = .movMr x y b2 b3 ∧
        0 ≤ (s.reg x).toInt ∧ (s.reg x).toInt.toNat ≤ a ∧ a ≤ (s.reg x).toInt.toNat + 3 ∧ a ≤ 127

/-! ### The trace record (section 2 of spec/40_engine.md) -/

/-- R93, R94, R95, rest on the spec's decision D18 (log 14): every step hands the sink exactly one record: the exit record, the
fault record, or a trace record with the address and all four bytes of the fetched word. -/
def Obligations.EveryStepHandsOneRecord : Prop :=
  ∀ s t : State, step s = .next t →
    (t.run = .exit ∧ Emitted (.exit s.pc) s t) ∨
    (t.run = .fault ∧ ∃ c info, Emitted (.fault c s.pc info) s t) ∨
    (t.run = .run ∧ ∃ x y e, x ++ y = s.byte (s.pc.toNat + 1) ∧
      Emitted (.trace s.pc (s.byte s.pc.toNat) x y (s.byte (s.pc.toNat + 2)) (s.byte (s.pc.toNat + 3)) e) s t)

/-- The effect table of R93, rests on the spec's decision D18 (log 14): what the trace record of each instruction says is what
the instruction did. -/
def Obligations.RecordedEffectIsTheEffect : Prop :=
  ∀ (x y : Nibble) (b2 b3 : Byte) (off : Half) (s t : State),
    (∀ i, i ∈ [Instr.movRi x y off, .movRr x y b2 b3, .add x y b2 b3, .sub x y b2 b3, .and x y b2 b3, .or x y b2 b3,
        .xor x y b2 b3, .sal x y b2 b3, .sar x y b2 b3] → exec i s = .next t →
      ∃ c d, Emitted (.trace s.pc i.opcode x y c d (.reg x (t.reg x))) s t) ∧
    (0 ≤ (s.reg y).toInt → (s.reg y).toInt ≤ 124 → exec (.movRm x y b2 b3) s = .next t →
      Emitted (.trace s.pc 0x02#8 x y b2 b3 (.load (s.reg y).toInt x (t.reg x))) s t) ∧
    (0 ≤ (s.reg x).toInt → (s.reg x).toInt ≤ 124 → exec (.movMr x y b2 b3) s = .next t →
      Emitted (.trace s.pc 0x03#8 x y b2 b3 (.store (s.reg x).toInt (t.byte (s.reg x).toInt.toNat)
        (t.byte ((s.reg x).toInt.toNat + 1)) (t.byte ((s.reg x).toInt.toNat + 2))
        (t.byte ((s.reg x).toInt.toNat + 3)))) s t) ∧
    (exec (.cmp x y b2 b3) s = .next t → Emitted (.trace s.pc 0x04#8 x y b2 b3 (.flags t.flags)) s t) ∧
    (∀ p ∈ [(Instr.jmp x y off, true), (.jg x y off, s.flags.gt), (.jl x y off, s.flags.lt), (.je x y off, s.flags.eq)],
      exec p.1 s = .next t → ∃ c d, Emitted (.trace s.pc p.1.opcode x y c d (.branch p.2 t.pc)) s t)

/-- R32 and R93: no step reads the counters or what the sink was handed: with any other counters and records, a step does the
same to everything else. The field `trace` is the model's (log 14). -/
def Obligations.CountersAndRecordsAreNeverRead : Prop :=
  ∀ (s t : State) (h : Vector Nat 16) (l : List Record), step s = .next t →
    ∃ u, step { s with hist := h, trace := l } = .next u ∧
      u = { t with hist := u.hist, trace := u.trace } ∧
      ∃ r, t.trace = r :: s.trace ∧ u.trace = r :: l

/-! ### Start and end of a run (spec/70_reset_and_hazards.md) -/

/-- R23 and R25: at the start of a run, every register is 0 and pc is 0, whatever is loaded. -/
def Obligations.RegistersAndPcStartAtZero : Prop :=
  ∀ (prog tail : List Byte) (f : Flags),
    (∀ r : Nibble, (State.launch prog tail f).reg r = 0x00000000#32) ∧ (State.launch prog tail f).pc = 0

/-- R187: the core sets M[i] to program byte i for every i below LEN, and LEN is the number of bytes supplied; a 129th byte is
not loaded. -/
def Obligations.LaunchLoadsTheProgram : Prop :=
  ∀ (prog tail : List Byte) (f : Flags),
    (State.launch prog tail f).len = min prog.length 128 ∧
    (∀ i : Nat, i < (State.launch prog tail f).len → some ((State.launch prog tail f).byte i) = prog[i]?) ∧
    State.launch prog tail f = State.launch (prog.take 128) tail f

/-- R30, R33, R36, R42, R180, rest on the spec's decisions D5, D6, D7 (logs 5, 6, 7): flags take FLAGS_INIT, the bytes from LEN
to 127 take TAIL_INIT, counters are 0, the run state is RUN and there is no fault record. -/
def Obligations.LaunchTakesTailAndFlags : Prop :=
  ∀ (prog tail : List Byte) (f : Flags),
    (State.launch prog tail f).flags = f ∧ (∀ k : Nibble, (State.launch prog tail f).counter k = 0) ∧
    (State.launch prog tail f).run = .run ∧ (State.launch prog tail f).fault = none ∧
    ∀ a : Nat, prog.length ≤ a → a < 128 → a - prog.length < tail.length →
      some ((State.launch prog tail f).byte a) = tail[a - prog.length]?

/-- R36: with an empty program, the first step goes straight to EXIT at pc = 0. The clause that every counter is then 0 is
R33, and rests on the spec's decision D7 (log 7). -/
def Obligations.EmptyProgramExitsAtOnce : Prop :=
  ∀ (tail : List Byte) (f : Flags), ∃ t, step (State.launch [] tail f) = .next t ∧ t.run = .exit ∧ t.pc = 0 ∧
    ∀ k : Nibble, t.counter k = 0

/-- R190 and R34, rests on the spec's decision D8 (log 8): the host's readout at EXIT shows the 16 registers, the flags and the
buffer, and each counter exactly while it is below 2^31; there is no readout before EXIT or in FAULT. -/
def Obligations.ReportShowsFinalState : Prop :=
  ∀ s : State, (s.run ≠ .exit → s.report = none) ∧
    (s.run = .exit → ∃ rep, s.report = some rep ∧ rep.registers = s.regs ∧ rep.flags = s.flags ∧
      rep.buffer = s.mem ∧ ∀ k : Nibble, s.counter k < 2 ^ 31 → rep.counters[k.toNat]? = some (s.counter k))

/-! ### Invariants -/

/-- Over every state, not only those a run reaches: a step keeps memory in canonical form inside its 128 bytes (R40), LEN at
most 128 (R27), pc in the range of R24, and the fault record present exactly in FAULT (R39, R161). -/
def Obligations.InvKeptByEveryStep : Prop :=
  ∀ s t : State, s.Inv → step s = .next t → t.Inv

/-- R24, rests on the spec's decision D26 (log 17): in every state with the invariant, the 32-bit register pc shows the exact
integer pc: no wrap-around occurs. -/
def Obligations.PcFitsItsRegister : Prop := ∀ s : State, s.Inv → s.pcRegister.toInt = s.pc

/-- The state after reset has the invariant. -/
def Obligations.InvAtReset : Prop := State.reset.Inv

/-- Every launch, whatever its program, TAIL_INIT and FLAGS_INIT, has the invariant. -/
def Obligations.InvAtEveryLaunch : Prop :=
  ∀ (prog tail : List Byte) (f : Flags), (State.launch prog tail f).Inv

/-- The model's memory form (log 5): two buffers in canonical form that read alike at every address are the same data. -/
def Obligations.CanonicalMemoriesReadAlikeAreEqual : Prop :=
  ∀ m n : Memory, m.wf → n.wf → (∀ a : Nat, m.read a = n.read a) → m = n

/-- The model's placing of a word (log 19): after it, the machine is about to fetch, and its next step runs exactly the
instruction the decoder reads from the table's word. -/
def Obligations.PlacedWordRunsNext : Prop :=
  ∀ (s : State) (w : Nat) (i : Instr), decodeTableWord 32 w = some i →
    (s.withFetchWord 32 w).Fetches ∧ step (s.withFetchWord 32 w) = exec i (s.withFetchWord 32 w)
end

