-- ==== Sys2Proof/Laws/Decode.lean ====
section
/-! SUPPORT. The bit fields of a word: packing and pulling out are inverse (R61, R64). -/

namespace Sys2Proof

/-- The upper part of two joined patterns. -/
theorem extractLsb'_append_high {m n : Nat} (u : BitVec m) (v : BitVec n) : (u ++ v).extractLsb' n m = u := by
  apply BitVec.eq_of_getLsbD_eq
  intro i hi
  simp [BitVec.getLsbD_append, hi]

/-- The lower part of two joined patterns. -/
theorem extractLsb'_append_low {m n : Nat} (u : BitVec m) (v : BitVec n) : (u ++ v).extractLsb' 0 n = v := by
  apply BitVec.eq_of_getLsbD_eq
  intro i hi
  simp [BitVec.getLsbD_append, hi]

/-- A pattern is its upper part joined to its lower part. -/
theorem append_extractLsb' {m n : Nat} (v : BitVec (m + n)) : v.extractLsb' n m ++ v.extractLsb' 0 n = v := by
  apply BitVec.eq_of_getLsbD_eq
  intro i hi
  rw [BitVec.getLsbD_append]
  split
  · simp_all
  · simp [show i - n < m by omega, show n + (i - n) = i by omega]

@[simp] theorem highNibble_operandByte (x y : Nibble) : highNibble (operandByte x y) = x :=
  extractLsb'_append_high x y

@[simp] theorem lowNibble_operandByte (x y : Nibble) : lowNibble (operandByte x y) = y :=
  extractLsb'_append_low x y

@[simp] theorem operandByte_nibbles (ob : Byte) : operandByte (highNibble ob) (lowNibble ob) = ob :=
  append_extractLsb' (m := 4) (n := 4) ob

@[simp] theorem hiByte_pack16 (b2 b3 : Byte) : hiByte (pack16 b2 b3) = b2 := extractLsb'_append_high b2 b3

@[simp] theorem loByte_pack16 (b2 b3 : Byte) : loByte (pack16 b2 b3) = b3 := extractLsb'_append_low b2 b3

@[simp] theorem pack16_bytes (imm : Half) : pack16 (hiByte imm) (loByte imm) = imm :=
  append_extractLsb' (m := 8) (n := 8) imm

end Sys2Proof
end

