-- ==== Sys2Proof/Laws/State.lean ====
section
/-! SUPPORT. What each update of the state does to each field, and to reading a register, a byte or a counter. -/

namespace Sys2Proof.Machine

/-! Writing a register changes `regs` only. -/

@[simp] theorem State.setReg_regs (s : State) (r : Nibble) (v : Word) :
    (s.setReg r v).regs = s.regs.set r.toNat v r.isLt := rfl
@[simp] theorem State.setReg_pc (s : State) (r : Nibble) (v : Word) : (s.setReg r v).pc = s.pc := rfl
@[simp] theorem State.setReg_flags (s : State) (r : Nibble) (v : Word) : (s.setReg r v).flags = s.flags := rfl
@[simp] theorem State.setReg_hist (s : State) (r : Nibble) (v : Word) : (s.setReg r v).hist = s.hist := rfl
@[simp] theorem State.setReg_mem (s : State) (r : Nibble) (v : Word) : (s.setReg r v).mem = s.mem := rfl
@[simp] theorem State.setReg_len (s : State) (r : Nibble) (v : Word) : (s.setReg r v).len = s.len := rfl
@[simp] theorem State.setReg_run (s : State) (r : Nibble) (v : Word) : (s.setReg r v).run = s.run := rfl
@[simp] theorem State.setReg_fault (s : State) (r : Nibble) (v : Word) : (s.setReg r v).fault = s.fault := rfl
@[simp] theorem State.setReg_trace (s : State) (r : Nibble) (v : Word) : (s.setReg r v).trace = s.trace := rfl
@[simp] theorem State.byte_setReg (s : State) (r : Nibble) (v : Word) (q : Nat) :
    (s.setReg r v).byte q = s.byte q := rfl
@[simp] theorem State.counter_setReg (s : State) (r : Nibble) (v : Word) (q : Nibble) :
    (s.setReg r v).counter q = s.counter q := rfl

/-! A store changes `mem` only. -/

@[simp] theorem State.storeWord_regs (s : State) (a : Nat) (v : Word) : (s.storeWord a v).regs = s.regs := rfl
@[simp] theorem State.storeWord_pc (s : State) (a : Nat) (v : Word) : (s.storeWord a v).pc = s.pc := rfl
@[simp] theorem State.storeWord_flags (s : State) (a : Nat) (v : Word) : (s.storeWord a v).flags = s.flags := rfl
@[simp] theorem State.storeWord_hist (s : State) (a : Nat) (v : Word) : (s.storeWord a v).hist = s.hist := rfl
@[simp] theorem State.storeWord_mem (s : State) (a : Nat) (v : Word) :
    (s.storeWord a v).mem = (((s.mem.write a (storedByte v 0)).write (a + 1) (storedByte v 1)).write (a + 2)
      (storedByte v 2)).write (a + 3) (storedByte v 3) := rfl
@[simp] theorem State.storeWord_len (s : State) (a : Nat) (v : Word) : (s.storeWord a v).len = s.len := rfl
@[simp] theorem State.storeWord_run (s : State) (a : Nat) (v : Word) : (s.storeWord a v).run = s.run := rfl
@[simp] theorem State.storeWord_fault (s : State) (a : Nat) (v : Word) : (s.storeWord a v).fault = s.fault := rfl
@[simp] theorem State.storeWord_trace (s : State) (a : Nat) (v : Word) : (s.storeWord a v).trace = s.trace := rfl
@[simp] theorem State.reg_storeWord (s : State) (a : Nat) (v : Word) (q : Nibble) :
    (s.storeWord a v).reg q = s.reg q := rfl
@[simp] theorem State.counter_storeWord (s : State) (a : Nat) (v : Word) (q : Nibble) :
    (s.storeWord a v).counter q = s.counter q := rfl

/-! A flag write changes `flags` only. -/

@[simp] theorem State.setFlags_regs (s : State) (f : Flags) : (s.setFlags f).regs = s.regs := rfl
@[simp] theorem State.setFlags_pc (s : State) (f : Flags) : (s.setFlags f).pc = s.pc := rfl
@[simp] theorem State.setFlags_flags (s : State) (f : Flags) : (s.setFlags f).flags = f := rfl
@[simp] theorem State.setFlags_hist (s : State) (f : Flags) : (s.setFlags f).hist = s.hist := rfl
@[simp] theorem State.setFlags_mem (s : State) (f : Flags) : (s.setFlags f).mem = s.mem := rfl
@[simp] theorem State.setFlags_len (s : State) (f : Flags) : (s.setFlags f).len = s.len := rfl
@[simp] theorem State.setFlags_run (s : State) (f : Flags) : (s.setFlags f).run = s.run := rfl
@[simp] theorem State.setFlags_fault (s : State) (f : Flags) : (s.setFlags f).fault = s.fault := rfl
@[simp] theorem State.setFlags_trace (s : State) (f : Flags) : (s.setFlags f).trace = s.trace := rfl
@[simp] theorem State.reg_setFlags (s : State) (f : Flags) (q : Nibble) : (s.setFlags f).reg q = s.reg q := rfl
@[simp] theorem State.byte_setFlags (s : State) (f : Flags) (q : Nat) : (s.setFlags f).byte q = s.byte q := rfl
@[simp] theorem State.counter_setFlags (s : State) (f : Flags) (q : Nibble) :
    (s.setFlags f).counter q = s.counter q := rfl

/-! Setting the pc changes `pc` only. -/

@[simp] theorem State.setPc_regs (s : State) (p : Int) : (s.setPc p).regs = s.regs := rfl
@[simp] theorem State.setPc_pc (s : State) (p : Int) : (s.setPc p).pc = p := rfl
@[simp] theorem State.setPc_flags (s : State) (p : Int) : (s.setPc p).flags = s.flags := rfl
@[simp] theorem State.setPc_hist (s : State) (p : Int) : (s.setPc p).hist = s.hist := rfl
@[simp] theorem State.setPc_mem (s : State) (p : Int) : (s.setPc p).mem = s.mem := rfl
@[simp] theorem State.setPc_len (s : State) (p : Int) : (s.setPc p).len = s.len := rfl
@[simp] theorem State.setPc_run (s : State) (p : Int) : (s.setPc p).run = s.run := rfl
@[simp] theorem State.setPc_fault (s : State) (p : Int) : (s.setPc p).fault = s.fault := rfl
@[simp] theorem State.setPc_trace (s : State) (p : Int) : (s.setPc p).trace = s.trace := rfl
@[simp] theorem State.reg_setPc (s : State) (p : Int) (q : Nibble) : (s.setPc p).reg q = s.reg q := rfl
@[simp] theorem State.byte_setPc (s : State) (p : Int) (q : Nat) : (s.setPc p).byte q = s.byte q := rfl
@[simp] theorem State.counter_setPc (s : State) (p : Int) (q : Nibble) : (s.setPc p).counter q = s.counter q := rfl

/-! Counting changes `hist` only. -/

@[simp] theorem State.count_regs (s : State) (k : Nibble) : (s.count k).regs = s.regs := rfl
@[simp] theorem State.count_pc (s : State) (k : Nibble) : (s.count k).pc = s.pc := rfl
@[simp] theorem State.count_flags (s : State) (k : Nibble) : (s.count k).flags = s.flags := rfl
@[simp] theorem State.count_hist (s : State) (k : Nibble) :
    (s.count k).hist = s.hist.set k.toNat (s.counter k + 1) k.isLt := rfl
@[simp] theorem State.count_mem (s : State) (k : Nibble) : (s.count k).mem = s.mem := rfl
@[simp] theorem State.count_len (s : State) (k : Nibble) : (s.count k).len = s.len := rfl
@[simp] theorem State.count_run (s : State) (k : Nibble) : (s.count k).run = s.run := rfl
@[simp] theorem State.count_fault (s : State) (k : Nibble) : (s.count k).fault = s.fault := rfl
@[simp] theorem State.count_trace (s : State) (k : Nibble) : (s.count k).trace = s.trace := rfl
@[simp] theorem State.reg_count (s : State) (k : Nibble) (q : Nibble) : (s.count k).reg q = s.reg q := rfl
@[simp] theorem State.byte_count (s : State) (k : Nibble) (q : Nat) : (s.count k).byte q = s.byte q := rfl

/-! Emitting changes `trace` only. -/

@[simp] theorem State.emit_regs (s : State) (r : Record) : (s.emit r).regs = s.regs := rfl
@[simp] theorem State.emit_pc (s : State) (r : Record) : (s.emit r).pc = s.pc := rfl
@[simp] theorem State.emit_flags (s : State) (r : Record) : (s.emit r).flags = s.flags := rfl
@[simp] theorem State.emit_hist (s : State) (r : Record) : (s.emit r).hist = s.hist := rfl
@[simp] theorem State.emit_mem (s : State) (r : Record) : (s.emit r).mem = s.mem := rfl
@[simp] theorem State.emit_len (s : State) (r : Record) : (s.emit r).len = s.len := rfl
@[simp] theorem State.emit_run (s : State) (r : Record) : (s.emit r).run = s.run := rfl
@[simp] theorem State.emit_fault (s : State) (r : Record) : (s.emit r).fault = s.fault := rfl
@[simp] theorem State.emit_trace (s : State) (r : Record) : (s.emit r).trace = r :: s.trace := rfl
@[simp] theorem State.reg_emit (s : State) (r : Record) (q : Nibble) : (s.emit r).reg q = s.reg q := rfl
@[simp] theorem State.byte_emit (s : State) (r : Record) (q : Nat) : (s.emit r).byte q = s.byte q := rfl
@[simp] theorem State.counter_emit (s : State) (r : Record) (q : Nibble) : (s.emit r).counter q = s.counter q := rfl

/-! The end of an executed instruction changes `hist`, `trace` and `pc` only. -/

@[simp] theorem State.retire_regs (s : State) (k x y : Nibble) (b2 b3 : Byte) (e : Effect) (n : Int) :
    (s.retire k x y b2 b3 e n).regs = s.regs := rfl
@[simp] theorem State.retire_pc (s : State) (k x y : Nibble) (b2 b3 : Byte) (e : Effect) (n : Int) :
    (s.retire k x y b2 b3 e n).pc = n := rfl
@[simp] theorem State.retire_flags (s : State) (k x y : Nibble) (b2 b3 : Byte) (e : Effect) (n : Int) :
    (s.retire k x y b2 b3 e n).flags = s.flags := rfl
@[simp] theorem State.retire_hist (s : State) (k x y : Nibble) (b2 b3 : Byte) (e : Effect) (n : Int) :
    (s.retire k x y b2 b3 e n).hist = s.hist.set k.toNat (s.counter k + 1) k.isLt := rfl
@[simp] theorem State.retire_mem (s : State) (k x y : Nibble) (b2 b3 : Byte) (e : Effect) (n : Int) :
    (s.retire k x y b2 b3 e n).mem = s.mem := rfl
@[simp] theorem State.retire_len (s : State) (k x y : Nibble) (b2 b3 : Byte) (e : Effect) (n : Int) :
    (s.retire k x y b2 b3 e n).len = s.len := rfl
@[simp] theorem State.retire_run (s : State) (k x y : Nibble) (b2 b3 : Byte) (e : Effect) (n : Int) :
    (s.retire k x y b2 b3 e n).run = s.run := rfl
@[simp] theorem State.retire_fault (s : State) (k x y : Nibble) (b2 b3 : Byte) (e : Effect) (n : Int) :
    (s.retire k x y b2 b3 e n).fault = s.fault := rfl
@[simp] theorem State.retire_trace (s : State) (k x y : Nibble) (b2 b3 : Byte) (e : Effect) (n : Int) :
    (s.retire k x y b2 b3 e n).trace = .trace s.pc (opByte k) x y b2 b3 e :: s.trace := rfl
@[simp] theorem State.reg_retire (s : State) (k x y : Nibble) (b2 b3 : Byte) (e : Effect) (n : Int) (q : Nibble) :
    (s.retire k x y b2 b3 e n).reg q = s.reg q := rfl
@[simp] theorem State.byte_retire (s : State) (k x y : Nibble) (b2 b3 : Byte) (e : Effect) (n : Int) (q : Nat) :
    (s.retire k x y b2 b3 e n).byte q = s.byte q := rfl

/-! The skip changes `trace` and `pc` only. -/

@[simp] theorem State.skip_regs (s : State) (op : Byte) (x y : Nibble) (b2 b3 : Byte) :
    (s.skip op x y b2 b3).regs = s.regs := rfl
@[simp] theorem State.skip_pc (s : State) (op : Byte) (x y : Nibble) (b2 b3 : Byte) :
    (s.skip op x y b2 b3).pc = s.pc + 4 := rfl
@[simp] theorem State.skip_flags (s : State) (op : Byte) (x y : Nibble) (b2 b3 : Byte) :
    (s.skip op x y b2 b3).flags = s.flags := rfl
@[simp] theorem State.skip_hist (s : State) (op : Byte) (x y : Nibble) (b2 b3 : Byte) :
    (s.skip op x y b2 b3).hist = s.hist := rfl
@[simp] theorem State.skip_mem (s : State) (op : Byte) (x y : Nibble) (b2 b3 : Byte) :
    (s.skip op x y b2 b3).mem = s.mem := rfl
@[simp] theorem State.skip_len (s : State) (op : Byte) (x y : Nibble) (b2 b3 : Byte) :
    (s.skip op x y b2 b3).len = s.len := rfl
@[simp] theorem State.skip_run (s : State) (op : Byte) (x y : Nibble) (b2 b3 : Byte) :
    (s.skip op x y b2 b3).run = s.run := rfl
@[simp] theorem State.skip_fault (s : State) (op : Byte) (x y : Nibble) (b2 b3 : Byte) :
    (s.skip op x y b2 b3).fault = s.fault := rfl
@[simp] theorem State.skip_trace (s : State) (op : Byte) (x y : Nibble) (b2 b3 : Byte) :
    (s.skip op x y b2 b3).trace = .trace s.pc op x y b2 b3 .unknown :: s.trace := rfl
@[simp] theorem State.reg_skip (s : State) (op : Byte) (x y : Nibble) (b2 b3 : Byte) (q : Nibble) :
    (s.skip op x y b2 b3).reg q = s.reg q := rfl
@[simp] theorem State.byte_skip (s : State) (op : Byte) (x y : Nibble) (b2 b3 : Byte) (q : Nat) :
    (s.skip op x y b2 b3).byte q = s.byte q := rfl
@[simp] theorem State.counter_skip (s : State) (op : Byte) (x y : Nibble) (b2 b3 : Byte) (q : Nibble) :
    (s.skip op x y b2 b3).counter q = s.counter q := rfl

/-! Taking a fault changes `run`, `fault` and `trace` only. -/

@[simp] theorem State.raise_regs (s : State) (c : FaultCause) (i : FaultInfo) : (s.raise c i).regs = s.regs := rfl
@[simp] theorem State.raise_pc (s : State) (c : FaultCause) (i : FaultInfo) : (s.raise c i).pc = s.pc := rfl
@[simp] theorem State.raise_flags (s : State) (c : FaultCause) (i : FaultInfo) : (s.raise c i).flags = s.flags := rfl
@[simp] theorem State.raise_hist (s : State) (c : FaultCause) (i : FaultInfo) : (s.raise c i).hist = s.hist := rfl
@[simp] theorem State.raise_mem (s : State) (c : FaultCause) (i : FaultInfo) : (s.raise c i).mem = s.mem := rfl
@[simp] theorem State.raise_len (s : State) (c : FaultCause) (i : FaultInfo) : (s.raise c i).len = s.len := rfl
@[simp] theorem State.raise_run (s : State) (c : FaultCause) (i : FaultInfo) : (s.raise c i).run = .fault := rfl
@[simp] theorem State.raise_fault (s : State) (c : FaultCause) (i : FaultInfo) :
    (s.raise c i).fault = some ⟨c, s.pc, i⟩ := rfl
@[simp] theorem State.raise_trace (s : State) (c : FaultCause) (i : FaultInfo) :
    (s.raise c i).trace = .fault c s.pc i :: s.trace := rfl
@[simp] theorem State.reg_raise (s : State) (c : FaultCause) (i : FaultInfo) (q : Nibble) :
    (s.raise c i).reg q = s.reg q := rfl
@[simp] theorem State.byte_raise (s : State) (c : FaultCause) (i : FaultInfo) (q : Nat) :
    (s.raise c i).byte q = s.byte q := rfl
@[simp] theorem State.counter_raise (s : State) (c : FaultCause) (i : FaultInfo) (q : Nibble) :
    (s.raise c i).counter q = s.counter q := rfl

/-! Entering EXIT changes `run` and `trace` only. -/

@[simp] theorem State.enterExit_regs (s : State) : s.enterExit.regs = s.regs := rfl
@[simp] theorem State.enterExit_pc (s : State) : s.enterExit.pc = s.pc := rfl
@[simp] theorem State.enterExit_flags (s : State) : s.enterExit.flags = s.flags := rfl
@[simp] theorem State.enterExit_hist (s : State) : s.enterExit.hist = s.hist := rfl
@[simp] theorem State.enterExit_mem (s : State) : s.enterExit.mem = s.mem := rfl
@[simp] theorem State.enterExit_len (s : State) : s.enterExit.len = s.len := rfl
@[simp] theorem State.enterExit_run (s : State) : s.enterExit.run = .exit := rfl
@[simp] theorem State.enterExit_fault (s : State) : s.enterExit.fault = s.fault := rfl
@[simp] theorem State.enterExit_trace (s : State) : s.enterExit.trace = .exit s.pc :: s.trace := rfl
@[simp] theorem State.reg_enterExit (s : State) (q : Nibble) : s.enterExit.reg q = s.reg q := rfl
@[simp] theorem State.byte_enterExit (s : State) (q : Nat) : s.enterExit.byte q = s.byte q := rfl
@[simp] theorem State.counter_enterExit (s : State) (q : Nibble) : s.enterExit.counter q = s.counter q := rfl

/-! Registers and counters: the written one reads what was written, every other one is as before. -/

theorem State.reg_setReg (s : State) (r q : Nibble) (v : Word) :
    (s.setReg r v).reg q = if q = r then v else s.reg q := by
  simp only [State.reg, State.setReg, Vector.getElem_set, ← BitVec.toNat_inj, eq_comm]

@[simp] theorem State.reg_setReg_same (s : State) (r : Nibble) (v : Word) : (s.setReg r v).reg r = v := by
  simp [State.reg_setReg]

theorem State.reg_setReg_other (s : State) (r q : Nibble) (v : Word) (h : q ≠ r) : (s.setReg r v).reg q = s.reg q := by
  simp [State.reg_setReg, h]

theorem State.counter_count (s : State) (k q : Nibble) :
    (s.count k).counter q = if q = k then s.counter k + 1 else s.counter q := by
  simp only [State.counter, State.count, Vector.getElem_set, ← BitVec.toNat_inj, eq_comm]

/-- The counter of the executed opcode, and only it, counts one more (R85). -/
theorem State.retire_counted (s : State) (k x y : Nibble) (b2 b3 : Byte) (e : Effect) (n : Int) :
    Counted k s (s.retire k x y b2 b3 e n) :=
  ⟨(State.counter_count s k k).trans (if_pos rfl), fun j h => (State.counter_count s k j).trans (if_neg h)⟩

end Sys2Proof.Machine
end

