-- ==== Sys2Proof/Laws/Memory.lean ====
section
/-! SUPPORT. The buffer's laws: what a read gives after each operation, and that each operation keeps the canonical form. -/

namespace Sys2Proof.Machine

/-! ### Reads -/

theorem Memory.read_remove (m : Memory) (a c : Nat) :
    (m.remove a).read c = if c = a then Config.unlistedByte else m.read c := by
  induction m with
  | nil => simp [Memory.remove, Memory.read]
  | cons h m ih =>
    obtain ⟨b, w⟩ := h
    by_cases hab : a = b
    · subst hab
      by_cases hca : c = a
      · subst hca; simpa [Memory.remove] using ih
      · simp [Memory.remove, Memory.read, ih, hca]
    · by_cases hcb : c = b
      · have : c ≠ a := fun h => hab (h ▸ hcb)
        simp [Memory.remove, Memory.read, hab, hcb, Ne.symm hab]
      · simp [Memory.remove, Memory.read, hab, hcb, ih]

theorem Memory.read_insert (m : Memory) (a c : Nat) (v : Byte) :
    (m.insert a v).read c = if c = a then v else m.read c := by
  induction m with
  | nil => simp [Memory.insert, Memory.read]
  | cons h m ih =>
    obtain ⟨b, w⟩ := h
    by_cases hlt : a < b
    · simp [Memory.insert, Memory.read, hlt]
    · by_cases hab : a = b
      · subst hab
        by_cases hca : c = a <;> simp [Memory.insert, Memory.read, hca]
      · by_cases hcb : c = b
        · simp [Memory.insert, Memory.read, hlt, hab, hcb, Ne.symm hab]
        · simp [Memory.insert, Memory.read, hlt, hab, hcb, ih]

/-- A read after a write: the value written, or what was there before. -/
theorem Memory.read_write (m : Memory) (a c : Nat) (v : Byte) :
    (m.write a v).read c = if c = a then v else m.read c := by
  unfold Memory.write
  split
  · rename_i h; rw [Memory.read_remove, h]
  · exact Memory.read_insert m a c v

@[simp] theorem Memory.read_write_same (m : Memory) (a : Nat) (v : Byte) : (m.write a v).read a = v := by
  simp [Memory.read_write]

theorem Memory.read_write_other (m : Memory) (a c : Nat) (v : Byte) (h : c ≠ a) :
    (m.write a v).read c = m.read c := by
  simp [Memory.read_write, h]

/-- The bytes of a store, and every other byte (R46, R110). -/
theorem State.byte_storeWord (s : State) (a c : Nat) (v : Word) :
    (s.storeWord a v).byte c =
      if c = a + 3 then storedByte v 3 else if c = a + 2 then storedByte v 2
      else if c = a + 1 then storedByte v 1 else if c = a then storedByte v 0 else s.byte c := by
  simp only [State.byte, State.storeWord_mem, Memory.read_write]

theorem State.storeWord_sameMemBut (s : State) (a : Nat) (v : Word) : SameMemBut a s (s.storeWord a v) := by
  intro c h
  rw [State.byte_storeWord]
  repeat' split
  all_goals first | rfl | omega

/-- Bytes placed from `a`: inside the list's span the list's byte, else what was there before. -/
theorem Memory.read_place (bs : List Byte) (a c : Nat) (m : Memory) :
    (Memory.place bs a m).read c = if a ≤ c then (bs[c - a]?).getD (m.read c) else m.read c := by
  induction bs generalizing a m with
  | nil => simp [Memory.place]
  | cons b bs ih =>
    rw [Memory.place, ih, Memory.read_write]
    rcases Nat.lt_trichotomy c a with h | h | h
    · simp [show ¬ a + 1 ≤ c by omega, show ¬ a ≤ c by omega, show c ≠ a by omega]
    · subst h; simp
    · have e : c - a = c - (a + 1) + 1 := by omega
      simp [show a + 1 ≤ c by omega, show a ≤ c by omega, show c ≠ a by omega, e]

/-! ### The canonical form -/

theorem Memory.mem_of_mem_remove (m : Memory) (a : Nat) (c : Host.Cell) (h : c ∈ m.remove a) : c ∈ m := by
  induction m with
  | nil => simp [Memory.remove] at h
  | cons d m ih =>
    obtain ⟨b, w⟩ := d
    by_cases hab : a = b
    · simp only [Memory.remove, hab, if_true] at h
      exact List.mem_cons_of_mem _ (ih (hab ▸ h))
    · simp only [Memory.remove, hab, if_false, List.mem_cons] at h ⊢
      exact h.imp_right ih

theorem Memory.mem_of_mem_insert (m : Memory) (a : Nat) (v : Byte) (c : Host.Cell) (h : c ∈ m.insert a v) :
    c = (a, v) ∨ c ∈ m := by
  induction m with
  | nil => simpa [Memory.insert] using h
  | cons d m ih =>
    obtain ⟨b, w⟩ := d
    by_cases hlt : a < b
    · simpa [Memory.insert, hlt] using h
    · by_cases hab : a = b
      · simp only [Memory.insert, hab, lt_irrefl, if_false, if_true, List.mem_cons] at h
        rcases h with h | h
        · exact .inl (hab ▸ h)
        · exact .inr (List.mem_cons_of_mem _ h)
      · simp only [Memory.insert, hlt, hab, if_false, List.mem_cons] at h
        rcases h with h | h
        · exact .inr (h ▸ List.mem_cons_self)
        · exact (ih h).imp_right (List.mem_cons_of_mem _)

theorem Memory.remove_wf (m : Memory) (a : Nat) (h : m.wf) : (m.remove a).wf := by
  refine ⟨?_, fun c hc => h.2 c (Memory.mem_of_mem_remove m a c hc)⟩
  induction m with
  | nil => simp [Memory.remove]
  | cons d m ih =>
    obtain ⟨b, w⟩ := d
    obtain ⟨hp, hm⟩ := h
    rw [List.pairwise_cons] at hp
    have hr := ih ⟨hp.2, fun c hc => hm c (List.mem_cons_of_mem _ hc)⟩
    by_cases hab : a = b
    · simpa [Memory.remove, hab] using hab ▸ hr
    · simp only [Memory.remove, hab, if_false, List.pairwise_cons]
      exact ⟨fun c hc => hp.1 c (Memory.mem_of_mem_remove m a c hc), hr⟩

theorem Memory.insert_wf (m : Memory) (a : Nat) (v : Byte) (h : m.wf) (ha : a < Config.memBytes)
    (hv : v ≠ Config.unlistedByte) : (m.insert a v).wf := by
  refine ⟨?_, fun c hc => ?_⟩
  · induction m with
    | nil => simp [Memory.insert]
    | cons d m ih =>
      obtain ⟨b, w⟩ := d
      obtain ⟨hp, hm⟩ := h
      have hp' := List.pairwise_cons.mp hp
      by_cases hlt : a < b
      · simp only [Memory.insert, hlt, if_true]
        refine List.pairwise_cons.mpr ⟨fun c hc => ?_, hp⟩
        rcases List.mem_cons.mp hc with rfl | hc
        · exact hlt
        · exact lt_trans hlt (hp'.1 c hc)
      · by_cases hab : a = b
        · simp only [Memory.insert, hab, lt_irrefl, if_false, if_true]
          exact List.pairwise_cons.mpr ⟨hp'.1, hp'.2⟩
        · simp only [Memory.insert, hlt, hab, if_false]
          refine List.pairwise_cons.mpr ⟨fun c hc => ?_, ih ⟨hp'.2, fun c hc => hm c (List.mem_cons_of_mem _ hc)⟩⟩
          rcases Memory.mem_of_mem_insert m a v c hc with rfl | hc
          · change b < a; omega
          · exact hp'.1 c hc
  · rcases Memory.mem_of_mem_insert m a v c hc with rfl | hc
    · exact ⟨ha, hv⟩
    · exact h.2 c hc

/-- A write inside the buffer keeps the canonical form. -/
theorem Memory.write_wf (m : Memory) (a : Nat) (v : Byte) (h : m.wf) (ha : a < Config.memBytes) : (m.write a v).wf := by
  unfold Memory.write
  split
  · exact Memory.remove_wf m a h
  · rename_i hv; exact Memory.insert_wf m a v h ha hv

theorem Memory.place_wf (bs : List Byte) (a : Nat) (m : Memory) (h : m.wf) (ha : a + bs.length ≤ Config.memBytes) :
    (Memory.place bs a m).wf := by
  induction bs generalizing a m with
  | nil => exact h
  | cons b bs ih =>
    rw [List.length_cons] at ha
    exact ih (a + 1) (m.write a b) (Memory.write_wf m a b h (by omega)) (by omega)

/-- A store to an admitted address keeps the canonical form. -/
theorem State.storeWord_wf (s : State) (a : Nat) (v : Word) (h : s.mem.wf) (ha : a + 3 < Config.memBytes) :
    (s.storeWord a v).mem.wf :=
  Memory.write_wf _ _ _ (Memory.write_wf _ _ _ (Memory.write_wf _ _ _ (Memory.write_wf _ _ _ h (by omega)) (by omega))
    (by omega)) ha

theorem State.reset_mem_wf : State.reset.mem.wf := by decide

theorem State.launch_mem_wf (prog tail : List Byte) (f : Flags) : (State.launch prog tail f).mem.wf :=
  Memory.place_wf _ 0 [] (by decide) (by simp)

theorem State.loadAtPc_mem_wf (s : State) (bs : List Byte) (h : s.mem.wf) (hb : bs.length ≤ 4) :
    (s.loadAtPc bs).mem.wf := by
  refine Memory.place_wf bs _ s.mem h ?_
  simp only [Config.lastWord, Config.memBytes]
  split <;> omega

end Sys2Proof.Machine
end

