-- ==== Sys2Proof/Laws/Ops.lean ====
section
/-! SUPPORT. One lemma per shared operation that says everything it does, and the inversion of a step. -/

namespace Sys2Proof.Machine

/-- Everything `State.retire` does: count, record and next pc; the rest stays. -/
theorem State.retire_spec (s : State) (k x y : Nibble) (b2 b3 : Byte) (e : Effect) (n : Int) :
    let t := s.retire k x y b2 b3 e n
    t.pc = n ∧ Counted k s t ∧ Emitted (.trace s.pc (opByte k) x y b2 b3 e) s t ∧
      SameRegs s t ∧ t.flags = s.flags ∧ SameMem s t ∧ SameControl s t :=
  ⟨rfl, State.retire_counted .., rfl, fun _ => rfl, rfl, fun _ => rfl, rfl, rfl, rfl⟩

/-- Everything `State.writeResult` does: x[x] gets the value; the rest is `State.retire`'s. -/
theorem State.writeResult_spec (s : State) (k x y : Nibble) (b2 b3 : Byte) (v : Word) :
    let t := s.writeResult k x y b2 b3 v
    t.reg x = v ∧ SameRegsBut x s t ∧ t.pc = s.pc + 4 ∧ Counted k s t ∧
      Emitted (.trace s.pc (opByte k) x y b2 b3 (.reg x v)) s t ∧ t.flags = s.flags ∧ SameMem s t ∧ SameControl s t :=
  ⟨State.reg_setReg_same s x v, fun r h => State.reg_setReg_other s x r v h, rfl,
    State.retire_counted (s.setReg x v) .., rfl, rfl, fun _ => rfl, rfl, rfl, rfl⟩

/-- Everything `State.branch` does: the pc goes to the target if taken, else past the instruction; no register, flag or
byte changes. -/
theorem State.branch_spec (s : State) (k x y : Nibble) (off : Half) (c : Bool) :
    let t := s.branch k x y off c
    t.pc = (if c then s.pc + off.toInt + 4 else s.pc + 4) ∧ Counted k s t ∧
      Emitted (.trace s.pc (opByte k) x y (hiByte off) (loByte off) (.branch c t.pc)) s t ∧
      SameRegs s t ∧ t.flags = s.flags ∧ SameMem s t ∧ SameControl s t :=
  ⟨rfl, State.retire_counted .., rfl, fun _ => rfl, rfl, fun _ => rfl, rfl, rfl, rfl⟩

/-- Everything `State.skip` does (R70). -/
theorem State.skip_spec (s : State) (op : Byte) (x y : Nibble) (b2 b3 : Byte) :
    let t := s.skip op x y b2 b3
    t.pc = s.pc + 4 ∧ SameCounters s t ∧ Emitted (.trace s.pc op x y b2 b3 .unknown) s t ∧
      SameRegs s t ∧ t.flags = s.flags ∧ SameMem s t ∧ SameControl s t :=
  ⟨rfl, fun _ => rfl, rfl, fun _ => rfl, rfl, fun _ => rfl, rfl, rfl, rfl⟩

/-- Everything `State.raise` does (R89, R161). -/
theorem State.raise_spec (s : State) (c : FaultCause) (i : FaultInfo) :
    let t := s.raise c i
    t.run = .fault ∧ t.fault = some ⟨c, s.pc, i⟩ ∧ Emitted (.fault c s.pc i) s t ∧
      t.regs = s.regs ∧ t.pc = s.pc ∧ t.flags = s.flags ∧ t.hist = s.hist ∧ t.mem = s.mem ∧ t.len = s.len :=
  ⟨rfl, rfl, rfl, rfl, rfl, rfl, rfl, rfl, rfl⟩

theorem admitted_iff (a : Int) : admitted a = true ↔ 0 ≤ a ∧ a ≤ 124 := by
  simp [admitted, Config.lastWord]

/-- The two ways of a load (R104, R105). -/
theorem execMovRm_cases (x y : Nibble) (b2 b3 : Byte) (s : State) :
    ((0 ≤ (s.reg y).toInt ∧ (s.reg y).toInt ≤ 124) ∧
      execMovRm x y b2 b3 s = .next ((s.setReg x (s.loadValue (s.reg y).toInt.toNat)).retire 0x2#4 x y b2 b3
        (.load (s.reg y).toInt x (s.loadValue (s.reg y).toInt.toNat)) (s.pc + 4))) ∨
    (¬ (0 ≤ (s.reg y).toInt ∧ (s.reg y).toInt ≤ 124) ∧
      execMovRm x y b2 b3 s = .next (s.raise .memOutOfRange (.access (s.reg y).toInt 0x02#8))) := by
  by_cases h : 0 ≤ (s.reg y).toInt ∧ (s.reg y).toInt ≤ 124
  · exact .inl ⟨h, if_pos ((admitted_iff _).mpr h)⟩
  · exact .inr ⟨h, if_neg (fun g => h ((admitted_iff _).mp g))⟩

/-- The two ways of a store (R108, R109). -/
theorem execMovMr_cases (x y : Nibble) (b2 b3 : Byte) (s : State) :
    ((0 ≤ (s.reg x).toInt ∧ (s.reg x).toInt ≤ 124) ∧
      execMovMr x y b2 b3 s = .next ((s.storeWord (s.reg x).toInt.toNat (s.reg y)).retire 0x3#4 x y b2 b3
        (.store (s.reg x).toInt (storedByte (s.reg y) 0) (storedByte (s.reg y) 1) (storedByte (s.reg y) 2)
          (storedByte (s.reg y) 3)) (s.pc + 4))) ∨
    (¬ (0 ≤ (s.reg x).toInt ∧ (s.reg x).toInt ≤ 124) ∧
      execMovMr x y b2 b3 s = .next (s.raise .memOutOfRange (.access (s.reg x).toInt 0x03#8))) := by
  by_cases h : 0 ≤ (s.reg x).toInt ∧ (s.reg x).toInt ≤ 124
  · exact .inl ⟨h, if_pos ((admitted_iff _).mpr h)⟩
  · exact .inr ⟨h, if_neg (fun g => h ((admitted_iff _).mp g))⟩

/-- What a step that answers a next state did: it ended the run, took a fetch fault, or executed the fetched instruction
(R97). -/
theorem step_cases {s t : State} (h : step s = .next t) :
    s.run = .run ∧
      (((s.len : Int) ≤ s.pc ∧ t = s.enterExit) ∨
       (s.pc < s.len ∧ s.pc < 0 ∧ t = s.raise .pcNegative (.pcValue s.pc)) ∨
       (s.pc < s.len ∧ 124 < s.pc ∧ t = s.raise .fetchOutOfRange (.pcValue s.pc)) ∨
       (s.pc < s.len ∧ 0 ≤ s.pc ∧ s.pc ≤ 124 ∧ exec (s.fetch s.pc.toNat) s = .next t)) := by
  unfold step at h
  split at h
  · refine ⟨by assumption, ?_⟩
    unfold engineStep at h
    simp only [Config.lastWord] at h
    split at h
    · exact .inl ⟨by assumption, by cases h; rfl⟩
    · split at h
      · exact .inr (.inl ⟨by omega, by assumption, by cases h; rfl⟩)
      · split at h
        · exact .inr (.inr (.inl ⟨by omega, by assumption, by cases h; rfl⟩))
        · exact .inr (.inr (.inr ⟨by omega, by omega, by omega, h⟩))
  · cases h
  · cases h

end Sys2Proof.Machine
end

