-- ==== Sys2Proof/Laws/PerInstr.lean ====
section
/-! SUPPORT. Statements made per instruction, one lemma per constructor. -/

namespace Sys2Proof.Laws.WordShape

/-- Every instruction's word is four bytes (R60) that begin with its opcode byte (R61). -/
def Statement (i : Instr) : Prop := (encode i).length = 4 ∧ (encode i).head? = some i.opcode

theorem movRi (x y : Nibble) (imm : Half) : Statement (.movRi x y imm) := ⟨rfl, rfl⟩
theorem movRr (x y : Nibble) (b2 b3 : Byte) : Statement (.movRr x y b2 b3) := ⟨rfl, rfl⟩
theorem movRm (x y : Nibble) (b2 b3 : Byte) : Statement (.movRm x y b2 b3) := ⟨rfl, rfl⟩
theorem movMr (x y : Nibble) (b2 b3 : Byte) : Statement (.movMr x y b2 b3) := ⟨rfl, rfl⟩
theorem cmp (x y : Nibble) (b2 b3 : Byte) : Statement (.cmp x y b2 b3) := ⟨rfl, rfl⟩
theorem jmp (x y : Nibble) (off : Half) : Statement (.jmp x y off) := ⟨rfl, rfl⟩
theorem jg (x y : Nibble) (off : Half) : Statement (.jg x y off) := ⟨rfl, rfl⟩
theorem jl (x y : Nibble) (off : Half) : Statement (.jl x y off) := ⟨rfl, rfl⟩
theorem je (x y : Nibble) (off : Half) : Statement (.je x y off) := ⟨rfl, rfl⟩
theorem add (x y : Nibble) (b2 b3 : Byte) : Statement (.add x y b2 b3) := ⟨rfl, rfl⟩
theorem sub (x y : Nibble) (b2 b3 : Byte) : Statement (.sub x y b2 b3) := ⟨rfl, rfl⟩
theorem and (x y : Nibble) (b2 b3 : Byte) : Statement (.and x y b2 b3) := ⟨rfl, rfl⟩
theorem or (x y : Nibble) (b2 b3 : Byte) : Statement (.or x y b2 b3) := ⟨rfl, rfl⟩
theorem xor (x y : Nibble) (b2 b3 : Byte) : Statement (.xor x y b2 b3) := ⟨rfl, rfl⟩
theorem sal (x y : Nibble) (b2 b3 : Byte) : Statement (.sal x y b2 b3) := ⟨rfl, rfl⟩
theorem sar (x y : Nibble) (b2 b3 : Byte) : Statement (.sar x y b2 b3) := ⟨rfl, rfl⟩
theorem unknown (op : Byte) (x y : Nibble) (b2 b3 : Byte) : Statement (.unknown op x y b2 b3) := ⟨rfl, rfl⟩

end Sys2Proof.Laws.WordShape
end

