-- ==== Sys2Proof/Tests/Slice0.lean ====
section
/-! SUPPORT. Tests. Expected results are those of spec/95_test_vectors.md (the id in each comment) or of the rule named.
The theorems named `witness_…` show states and operands that meet the hypotheses of the statement of that name. -/

namespace Sys2Proof.Tests

open Sys2Proof.Machine

/-! ### Helpers -/

/-- The next state an outcome holds. -/
def next? : Host.Outcome State Fault Refusal → Option State
  | .next t => some t
  | .fault _ => none
  | .refused _ => none

/-- A launch of the given bytes with the reference TAIL_INIT and FLAGS_INIT (section L2 of spec/95_test_vectors.md). -/
def boot (bs : List Byte) : State := State.launch bs [] ⟨false, false, false⟩

/-- One word at 0, with x[1] and x[2] given. -/
def boot2 (bs : List Byte) (v1 v2 : Word) : State := ((boot bs).setReg 1 v1).setReg 2 v2

/-- What one step leaves in a view. -/
def see {α : Type} (s : State) (view : State → α) : Option α := (next? (step s)).map view

/-! ### Well-formedness -/

/-- R69, R70: UNKNOWN with a defined opcode is refused, with the first out-of-range one it is not. -/
theorem test_wellFormed_refuses_defined_opcode :
    (Instr.unknown 0x0F 0 0 0 0).wellFormed = false ∧ (Instr.unknown 0x00 0 0 0 0).wellFormed = false ∧
    (Instr.unknown 0x10 0 0 0 0).wellFormed = true := by decide

/-! ### Decoding: words written out bit by bit from R61 to R69 -/

/-- D1 and C1's example `00 00 00 05`. -/
theorem test_decode_movRi :
    decode [0b00000000, 0b00111111, 0b11111111, 0b11111110] = .ok (.movRi 3 15 0xFFFE, []) ∧
    decode [0b00000000, 0b00000000, 0b00000000, 0b00000101] = .ok (.movRi 0 0 5, []) := ⟨rfl, rfl⟩

/-- R102's example and M6. -/
theorem test_decode_movRr :
    decode [0b00000001, 0b00100001, 0, 0] = .ok (.movRr 2 1 0 0, []) ∧
    decode [0b00000001, 0b01110111, 0b10101011, 0b11001101] = .ok (.movRr 7 7 0xAB 0xCD, []) := ⟨rfl, rfl⟩

/-- R104's and R108's examples. -/
theorem test_decode_memory :
    decode [0b00000010, 0b00110001, 0, 0] = .ok (.movRm 3 1 0 0, []) ∧
    decode [0b00000011, 0b00010010, 0, 0] = .ok (.movMr 1 2 0 0, []) := ⟨rfl, rfl⟩

/-- D5. -/
theorem test_decode_cmp : decode [0b00000100, 0b11110000, 0, 0] = .ok (.cmp 15 0 0 0, []) := rfl

/-- D2, R126's and R127's examples, D8. -/
theorem test_decode_jumps :
    decode [0b00000101, 0b00000000, 0b11111111, 0b11011100] = .ok (.jmp 0 0 0xFFDC, []) ∧
    decode [0b00000110, 0, 0b00000000, 0b00001000] = .ok (.jg 0 0 8, []) ∧
    decode [0b00000111, 0, 0b00000000, 0b00000100] = .ok (.jl 0 0 4, []) ∧
    decode [0b00001000, 0, 0b10000000, 0b00000000] = .ok (.je 0 0 0x8000, []) := ⟨rfl, rfl, rfl, rfl⟩

/-- The examples of R140 to R144. -/
theorem test_decode_alu :
    decode [0b00001001, 0b00000001, 0, 0] = .ok (.add 0 1 0 0, []) ∧
    decode [0b00001010, 0b00000011, 0, 0] = .ok (.sub 0 3 0 0, []) ∧
    decode [0b00001011, 0b00100011, 0, 0] = .ok (.and 2 3 0 0, []) ∧
    decode [0b00001100, 0b01000101, 0, 0] = .ok (.or 4 5 0 0, []) ∧
    decode [0b00001101, 0b00010010, 0, 0] = .ok (.xor 1 2 0 0, []) := ⟨rfl, rfl, rfl, rfl, rfl⟩

/-- D3 and D4: the count is byte 3. -/
theorem test_decode_shifts :
    decode [0b00001110, 0b01010000, 0, 0b00011000] = .ok (.sal 5 0 0 24, []) ∧
    decode [0b00001111, 0b00000000, 0b00000001, 0b00000010] = .ok (.sar 0 0 1 2, []) := ⟨rfl, rfl⟩

/-- D6, D7, and the four UNKNOWN rows of spec/opcode_table.json at their first opcode. -/
theorem test_decode_unknown :
    decode [0b00011111, 0, 0, 0] = .ok (.unknown 0x1F 0 0 0 0, []) ∧
    decode [0b00010000, 0b00010010, 0b00110100, 0b01010110] = .ok (.unknown 0x10 1 2 0x34 0x56, []) ∧
    decode [0b00100000, 0, 0, 0] = .ok (.unknown 0x20 0 0 0 0, []) ∧
    decode [0b01000000, 0, 0, 0] = .ok (.unknown 0x40 0 0 0 0, []) ∧
    decode [0b10000000, 0, 0, 0] = .ok (.unknown 0x80 0 0 0 0, []) := ⟨rfl, rfl, rfl, rfl, rfl⟩

/-- R60: three bytes are no instruction. -/
theorem test_decode_truncated : decode [0, 0, 0] = .error .truncated := rfl

/-- R62: the table numbers the opcode byte in bits 31 to 24 (match 0x0E000000). -/
theorem test_decodeTableWord :
    decodeTableWord 32 0x0E500018 = some (.sal 5 0 0 24) ∧ decodeTableWord 32 0x80000000 = some (.unknown 0x80 0 0 0 0) :=
  ⟨rfl, rfl⟩

/-- R74: program P4's `JMP -36` and its label form, `MOV [R6], R4`, and an offset too far. -/
theorem test_assembler :
    (Instr.jmp 0 0 0xFFDC).spelling = some "JMP -36" ∧ labelOffset 56 24 = some 0xFFDC ∧
    (Instr.movMr 6 4 0 0).spelling = some "MOV [R6], R4" ∧ labelOffset 0 32772 = none := by decide

/-- R75: the NOP idiom is 05 00 00 00, and the effects of the idioms. -/
theorem test_idioms :
    encode idiomNop = [0x05, 0x00, 0x00, 0x00] ∧
    see (boot2 (encode (idiomClr 1)) 7 0) (fun t => t.reg 1) = some 0 ∧
    see (boot (encode idiomSetEq)) (fun t => t.flags) = some ⟨false, false, true⟩ ∧
    see (boot (encode idiomSetLt)) (fun t => t.flags) = some ⟨false, true, false⟩ ∧
    see (boot (encode idiomSetGt)) (fun t => t.flags) = some ⟨true, false, false⟩ := by decide

/-! ### Data movement -/

/-- M3: imm16 0x8000 sign-extends. -/
theorem test_movRi_negative :
    see (boot [0x00, 0x30, 0x80, 0x00]) (fun t => (t.reg 3, t.pc, t.counter 0x0)) = some (0xFFFF8000, 4, 1) := by decide

/-- M5. -/
theorem test_movRr : see (boot2 [0x01, 0x21, 0, 0] 3 0) (fun t => t.reg 2) = some 3 := by decide

/-- M7: nibble-wise overlap. -/
theorem test_movRm_overlap :
    see ((boot2 [0x02, 0x31, 0, 0] 64 0).storeWord 64 0x12345678) (fun t => t.reg 3) = some 0x00013578 := by decide

/-- M13: a load from its own code, the address register 0 holding 0. -/
theorem test_movRm_own_code : see (boot [0x02, 0x10, 0, 0]) (fun t => t.reg 1) = some 0x00003000 := by decide

/-- M14: most-significant byte first. -/
theorem test_movMr_order :
    see (boot2 [0x03, 0x12, 0, 0] 0x40 0x12345678) (fun t => [t.byte 64, t.byte 65, t.byte 66, t.byte 67]) =
      some [0x12, 0x34, 0x56, 0x78] := by decide

/-- M17, S11: a store at 125 faults and commits nothing. -/
theorem test_movMr_fault :
    see (boot2 [0x03, 0x12, 0, 0] 0x7D 7) (fun t => (t.fault, t.pc, t.counter 0x3, t.byte 125)) =
      some (some ⟨.memOutOfRange, 0, .access 125 0x03⟩, 0, 0, 0) := by decide

/-! ### Compare and branch -/

/-- B4: the indices are compared, not the registers. -/
theorem test_cmp_indices :
    see (((boot [0x04, 0x0F, 0, 0]).setReg 0 0x64).setReg 15 0xFFFFFF9C) (fun t => t.flags) =
      some ⟨false, true, false⟩ := by decide

/-- B7: JMP -4 stays; B9: JMP -16 goes to -12. -/
theorem test_jmp_backward :
    see (boot [0x05, 0, 0xFF, 0xFC]) (fun t => t.pc) = some 0 ∧
    see (boot [0x05, 0, 0xFF, 0xF0]) (fun t => t.pc) = some (-12) := by decide

/-- B12 and B13. -/
theorem test_jg :
    see ((boot [0x06, 0, 0, 8]).setFlags ⟨true, false, false⟩) (fun t => t.pc) = some 12 ∧
    see ((boot [0x06, 0, 0, 8]).setFlags ⟨false, true, false⟩) (fun t => t.pc) = some 4 := by decide

/-- B14 and B15. -/
theorem test_jl :
    see ((boot [0x07, 0, 0, 8]).setFlags ⟨false, true, false⟩) (fun t => t.pc) = some 12 ∧
    see ((boot [0x07, 0, 0, 8]).setFlags ⟨true, false, true⟩) (fun t => t.pc) = some 4 := by decide

/-- B17 and B18. -/
theorem test_je :
    see ((boot [0x08, 0, 0, 8]).setFlags ⟨true, true, false⟩) (fun t => t.pc) = some 4 ∧
    see ((boot [0x08, 0, 0x7F, 0xFF]).setFlags ⟨false, false, true⟩) (fun t => t.pc) = some 32771 := by decide

/-! ### Arithmetic, logic and shifts -/

/-- A2, with x[1] and x[2] for x[0] and x[1]. -/
theorem test_add_overflow : see (boot2 [0x09, 0x12, 0, 0] 0x7FFFFFFF 1) (fun t => t.reg 1) = some 0x80000000 := by decide

/-- A5 and A6. -/
theorem test_sub_wraps :
    see (boot2 [0x0A, 0x12, 0, 0] 0 1) (fun t => t.reg 1) = some 0xFFFFFFFF ∧
    see (boot2 [0x0A, 0x12, 0, 0] 0x80000000 1) (fun t => t.reg 1) = some 0x7FFFFFFF := by decide

/-- A8. -/
theorem test_and : see (boot2 [0x0B, 0x12, 0, 0] 0xF0F0FFFF 0x0FF0F00F) (fun t => t.reg 1) = some 0x00F0F00F := by decide

/-- A9. -/
theorem test_or : see (boot2 [0x0C, 0x12, 0, 0] 0x00200000 0x04000000) (fun t => t.reg 1) = some 0x04200000 := by decide

/-- A10. -/
theorem test_xor : see (boot2 [0x0D, 0x12, 0, 0] 0xFFFF0000 0x0F0F0F0F) (fun t => t.reg 1) = some 0xF0F00F0F := by decide

/-- A13 and A14. -/
theorem test_sal :
    see (boot2 [0x0E, 0x10, 0, 31] 1 0) (fun t => t.reg 1) = some 0x80000000 ∧
    see (boot2 [0x0E, 0x10, 0, 32] 1 0) (fun t => t.reg 1) = some 0 := by decide

/-- A20 and A22. -/
theorem test_sar :
    see (boot2 [0x0F, 0x10, 0, 1] 0xFFFFFFFB 0) (fun t => t.reg 1) = some 0xFFFFFFFD ∧
    see (boot2 [0x0F, 0x10, 0, 32] 0x80000000 0) (fun t => t.reg 1) = some 0xFFFFFFFF := by decide

/-! ### The engine -/

/-- S2: an out-of-range opcode. -/
theorem test_unknown_skips :
    see (boot2 [0x1F, 0, 0, 0] 0x1234 0) (fun t => (t.reg 1, t.pc, t.hist.toList.sum, t.trace)) =
      some (0x1234, 4, 0, [.trace 0 0x1F 0 0 0 0 .unknown]) := by decide

/-- S6b: a truncated instruction reads TAIL_INIT. -/
theorem test_fetch_reads_tail :
    see (State.launch [0x00, 0x10] [0x07, 0x07] ⟨false, false, false⟩) (fun t => (t.reg 1, t.pc)) =
      some (0x00000707, 4) := by decide

/-- S1 and S5: EXIT at pc = LEN, and at once for an empty program. -/
theorem test_exit :
    see { boot [1, 2, 3, 4] with pc := 4 } (fun t => (t.run, t.trace)) = some (.exit, [.exit 4]) ∧
    see (boot []) (fun t => (t.run, t.pc)) = some (.exit, 0) := by decide

/-- S7 and S10. -/
theorem test_fetch_faults :
    see { boot [] with pc := 125, len := 128 } (fun t => t.fault) = some (some ⟨.fetchOutOfRange, 125, .pcValue 125⟩) ∧
    see { boot [] with pc := -12, len := 4 } (fun t => t.fault) = some (some ⟨.pcNegative, -12, .pcValue (-12)⟩) := by
  decide

/-- The reset state is the launch of nothing with the reference values (logs 5, 6, 19). -/
theorem test_reset_is_reference_launch : State.reset = boot [] := by decide

/-- R162's codes and R31's bit places. -/
theorem test_codes_and_packed_flags :
    (FaultCause.pcNegative.code, FaultCause.fetchOutOfRange.code, FaultCause.memOutOfRange.code) = (1, 2, 3) ∧
    (Flags.mk true false false).pack = 0b100 ∧ (Flags.mk false true false).pack = 0b010 ∧
    (Flags.mk false false true).pack = 0b001 := by decide

/-- Running the instruction of the first table row right after reset. -/
theorem test_withFetchWord_after_reset :
    see (State.reset.withFetchWord 32 0x00300005) (fun t => (t.reg 3, t.pc, t.len)) = some (5, 4, 4) := by decide

/-! ### Witnesses: the hypotheses of the statements can be met, at the boundaries of their ranges -/

/-- x[1] = 0 and x[2] = 124: the two ends of the admitted addresses; x[3] = -1 and x[4] = 125 lie just outside. -/
def edge : State :=
  ((((boot [0x03, 0x12, 0, 0, 0x05, 0x00, 0xFF, 0xFC]).setReg 1 0).setReg 2 124).setReg 3 0xFFFFFFFF).setReg 4 125

theorem witness_EncodedInstrDecodesBack :
    (Instr.unknown 0x10 0 0 0 0).wellFormed = true ∧ (Instr.unknown 0xFF 15 15 0xFF 0xFF).wellFormed = true := by decide

/-- For LoadComposesNibbles, LoadedValueHasTwentyBits, StoreWritesBigEndian, StoreThenLoadIsIdentityOnBytesOnly,
SameRegisterTwiceReadsFirst and RecordedEffectIsTheEffect. -/
theorem witness_admitted_addresses :
    (0 ≤ (edge.reg 1).toInt ∧ (edge.reg 1).toInt ≤ 124) ∧ (0 ≤ (edge.reg 2).toInt ∧ (edge.reg 2).toInt ≤ 124) := by decide

theorem witness_AccessOutsideBufferFaults :
    ((edge.reg 3).toInt < 0 ∨ 124 < (edge.reg 3).toInt) ∧ ((edge.reg 4).toInt < 0 ∨ 124 < (edge.reg 4).toInt) := by decide

/-- Both sides of the equivalence of StoreThenLoadIsIdentityOnBytesOnly occur: 255 is kept, 256 is not (R112). -/
theorem witness_StoreThenLoadIsIdentityOnBytesOnly :
    ((edge.storeWord 64 0x000000FF).loadValue 64 = 0x000000FF) ∧
    ((edge.storeWord 64 0x00000100).loadValue 64 = 0x00000010) := by decide

/-- M19: a store over the next instruction. -/
theorem witness_StoredWordIsNextInstr :
    ∃ s t : State, (0 ≤ (s.reg 1).toInt ∧ (s.reg 1).toInt ≤ 124) ∧ exec (.movMr 1 2 0 0) s = .next t ∧ t.Fetches ∧
      t.pc = (s.reg 1).toInt :=
  ⟨boot2 [0x03, 0x12, 0, 0, 0, 0, 0, 0] 4 0x05000000, _, by decide, rfl, ⟨by decide, by decide, by decide, by decide⟩,
    by decide⟩

/-- For NextPcOfEveryInstr, CounterOfTheOpcodeCounts: a load and a store that are admitted, an instruction that always is. -/
theorem witness_Admits : Admits (.movRm 0 2 0 0) edge ∧ Admits (.movMr 1 0 0 0) edge ∧ Admits (.jmp 0 0 0) edge :=
  ⟨⟨by decide, by decide⟩, ⟨by decide, by decide⟩, trivial⟩

theorem witness_SelfJumpStaysInPlace :
    ∃ s : State, s.Fetches ∧ s.fetch s.pc.toNat = .jmp 0 0 0xFFFC#16 :=
  ⟨{ edge with pc := 4 }, ⟨by decide, by decide, by decide, by decide⟩, by decide⟩

/-- The three clauses at their boundaries: target LEN, target -1, targets 0 and 124. -/
theorem witness_JumpTargetDecidesNextStep :
    edge.run = .run ∧ (∃ t, exec (.jmp 0 0 4) edge = .next t) ∧
    (edge.len : Int) ≤ edge.pc + (4#16 : Half).toInt + 4 ∧ edge.pc + (0xFFFB#16 : Half).toInt + 4 < 0 ∧
    0 ≤ edge.pc + (0xFFFC#16 : Half).toInt + 4 ∧
    (let s := { edge with len := 128 }
     s.pc + (120#16 : Half).toInt + 4 < s.len ∧ s.pc + (120#16 : Half).toInt + 4 ≤ 124) :=
  ⟨by decide, ⟨_, rfl⟩, by decide, by decide, by decide, by decide⟩

/-- The two ends of the offsets a label can need (R74). -/
theorem witness_AssembledJumpReachesLabel :
    labelOffset edge.pc (-32764) = some 0x8000 ∧ labelOffset edge.pc 32771 = some 0x7FFF := by decide

/-- An operand that is 0 for BitwiseOperations, counts of 32 and 255 for the shifts. -/
theorem witness_BitwiseOperations_and_shifts :
    edge.reg 1 = 0#32 ∧ 32 ≤ (32#8 : Byte).toNat ∧ 32 ≤ (255#8 : Byte).toNat := by decide

theorem witness_RegistersReadAndWrittenByRow :
    (∃ t, exec (.add 1 2 0 0) edge = .next t) ∧ (3 : Nibble) ∉ writtenRegs (.add 1 2 0 0) ∧
    (2 : Nibble) ∉ writtenRegs (.add 1 2 0 0) ∧ (3 : Nibble) ∉ readRegs (.add 1 2 0 0) ∧
    (1 : Nibble) ∉ readRegs (.movRi 1 0 0) := ⟨⟨_, rfl⟩, by decide⟩

theorem witness_FlagsWrittenByCompareReadByJumps :
    (∀ x y b2 b3, Instr.add 1 2 0 0 ≠ .cmp x y b2 b3) ∧ (∃ t, exec (.add 1 2 0 0) edge = .next t) ∧
    (∃ t, exec (.jg 0 0 8) edge = .next t) ∧ (Flags.mk false true true).gt = edge.flags.gt :=
  ⟨(by intro x y b2 b3 h; cases h), ⟨_, rfl⟩, ⟨_, rfl⟩, by decide⟩

theorem witness_ControlIsIndependentOfRegisters :
    ∃ s' : State, edge.pc = s'.pc ∧ edge.flags = s'.flags ∧ edge.reg 1 ≠ s'.reg 1 ∧
      Admits (.movRm 0 1 0 0) edge ∧ Admits (.movRm 0 1 0 0) s' ∧
      (∃ t, exec (.movRm 0 1 0 0) edge = .next t) ∧ ∃ t, exec (.movRm 0 1 0 0) s' = .next t :=
  ⟨edge.setReg 1 64, by decide, by decide, by decide, ⟨by decide, by decide⟩, ⟨by decide, by decide⟩, ⟨_, rfl⟩, ⟨_, rfl⟩⟩

/-- At pc = 0 and at the last pc a word can be fetched from (S9). -/
theorem witness_StepRunsDecodedInstr :
    ∀ p ∈ ([0, 124] : List Int), ∃ i : Instr, let s := { edge with pc := p, len := 128 }
      s.run = .run ∧ 0 ≤ s.pc ∧ s.pc < s.len ∧ s.pc ≤ 124 ∧
      decode [s.byte s.pc.toNat, s.byte (s.pc.toNat + 1), s.byte (s.pc.toNat + 2), s.byte (s.pc.toNat + 3)] = .ok (i, []) := by
  intro p hp
  simp only [List.mem_cons, List.not_mem_nil, or_false] at hp
  rcases hp with rfl | rfl
  · exact ⟨.movMr 1 2 0 0, by decide, by decide, by decide, by decide, rfl⟩
  · exact ⟨.movRi 0 0 0, by decide, by decide, by decide, by decide, rfl⟩

theorem witness_ExitAtOrPastLength :
    (let s := { edge with pc := 8 }; s.run = .run ∧ (s.len : Int) ≤ s.pc) := by decide

/-- pc = -1 and pc = 125, just outside the fetchable range on each side. -/
theorem witness_FetchFaults :
    (let s := { edge with pc := -1 }; s.run = .run ∧ s.pc < s.len ∧ s.pc < 0) ∧
    (let s := { edge with pc := 125, len := 126 }; s.run = .run ∧ s.pc < s.len ∧ 0 ≤ s.pc ∧ 127 < s.pc + 3) := by decide

theorem witness_TerminalStatesTakeNoStep :
    edge.enterExit.run = .exit ∧ (edge.raise .pcNegative (.pcValue 0)).run = .fault := by decide

/-- For FaultCommitsNothing, FaultsExactlyWhen, EveryStepHandsOneRecord, CountersAndRecordsAreNeverRead,
MemoryChangesOnlyByStore and CounterSumCountsExecuted: steps that fault, that exit and that execute. -/
theorem witness_steps_of_each_kind :
    (∃ t, step { edge with pc := -1 } = .next t ∧ t.run = .fault) ∧
    (∃ t, step { edge with pc := 8 } = .next t ∧ t.run = .exit) ∧
    (∃ t, step edge = .next t ∧ t.run = .run ∧ t.byte 3 ≠ edge.byte 3) :=
  ⟨⟨_, rfl, by decide⟩, ⟨_, rfl, by decide⟩, ⟨_, rfl, by decide⟩⟩

/-- The fourth way to fault: a fetched store that is not admitted. -/
theorem witness_FaultsExactlyWhen :
    let s := edge.setReg 1 125
    s.run = .run ∧ s.pc < s.len ∧ ¬ Admits (s.fetch s.pc.toNat) s := by
  refine ⟨by decide, by decide, fun h => absurd h.2 (by decide)⟩

theorem witness_LaunchLoadsTheProgram : 3 < (boot [9, 8, 7, 6]).len ∧ ([9, 8, 7, 6] : List Byte)[3]? = some 6 := by decide

theorem witness_LaunchTakesTailAndFlags :
    let prog : List Byte := [9, 8]; let tail : List Byte := [7, 6]
    prog.length ≤ 2 ∧ 2 - prog.length < tail.length ∧ (State.launch prog tail ⟨true, true, false⟩).byte 2 = 7 := by decide

theorem witness_ReportShowsFinalState :
    edge.run ≠ .exit ∧ edge.enterExit.run = .exit ∧ edge.enterExit.counter 0x0 < 2 ^ 31 := by decide

/-- For InvKeptByEveryStep and PcFitsItsRegister: a state with memory listed and a step that keeps RUN; one that ends in FAULT. -/
theorem witness_InvKeptByEveryStep :
    edge.Inv ∧ (∃ t, step edge = .next t) ∧ ({ edge with pc := -1 } : State).Inv ∧
    ∃ t, step { edge with pc := -1 } = .next t :=
  ⟨⟨by decide, by decide, by decide, by decide, by decide⟩, ⟨_, rfl⟩,
    ⟨by decide, by decide, by decide, by decide, by decide⟩, ⟨_, rfl⟩⟩

theorem witness_CanonicalMemoriesReadAlikeAreEqual :
    ∃ m : Memory, m ≠ [] ∧ m.wf ∧ ∀ a, m.read a = (edge.mem).read a := ⟨edge.mem, by decide, by decide, fun _ => rfl⟩

theorem witness_PlacedWordRunsNext : decodeTableWord 32 0xFFFFFFFF = some (.unknown 0xFF 15 15 0xFF 0xFF) := rfl

end Sys2Proof.Tests
end

/-! Proofs of the statements of spec/10_state.md: registers, flags and the start of a run. -/

namespace Sys2Proof.Machine

/-! ### The forms of an instruction

Nine instructions write a computed value to a register and four jump; the rest of `exec` is one load, one store, CMP and
the skip. Statements over every instruction are proved by this split. -/

/-- `f` and `g` agree in the flag that `i` reads, if it reads one (R126 to R128). -/
def ReadFlagAgrees (i : Instr) (f g : Flags) : Prop :=
  (∀ x y off, i = .jg x y off → f.gt = g.gt) ∧ (∀ x y off, i = .jl x y off → f.lt = g.lt) ∧
  (∀ x y off, i = .je x y off → f.eq = g.eq)

/-- What an instruction does in every state, by its form. The value a result takes is a function of the registers the
instruction reads, and a jump is decided by the flag it reads. -/
inductive ExecForm : Instr → Prop
  | result {i : Instr} (k x y : Nibble) (b2 b3 : Byte) (value : (Nibble → Word) → Word)
      (opcode : i.opcode = opByte k) (writes : writtenRegs i = [x])
      (reads : ∀ g g' : Nibble → Word, (∀ r ∈ readRegs i, g' r = g r) → value g' = value g)
      (runs : ∀ s, exec i s = .next (s.writeResult k x y b2 b3 (value s.reg))) : ExecForm i
  | load (x y : Nibble) (b2 b3 : Byte) : ExecForm (.movRm x y b2 b3)
  | store (x y : Nibble) (b2 b3 : Byte) : ExecForm (.movMr x y b2 b3)
  | compare (x y : Nibble) (b2 b3 : Byte) : ExecForm (.cmp x y b2 b3)
  | branch {i : Instr} (k x y : Nibble) (off : Half) (taken : Flags → Bool)
      (opcode : i.opcode = opByte k)
      (reads : ∀ f g : Flags, ReadFlagAgrees i f g → taken f = taken g)
      (runs : ∀ s, exec i s = .next (s.branch k x y off (taken s.flags))) : ExecForm i
  | skip (op : Byte) (x y : Nibble) (b2 b3 : Byte) : ExecForm (.unknown op x y b2 b3)

/-- A result computed from one register, X or Y. -/
theorem ExecForm.unary {i : Instr} (k x y : Nibble) (b2 b3 : Byte) (op : Word → Word) (z : Nibble)
    (opcode : i.opcode = opByte k) (writes : writtenRegs i = [x]) (reads : readRegs i = [z])
    (runs : ∀ s, exec i s = .next (s.writeResult k x y b2 b3 (op (s.reg z)))) : ExecForm i :=
  .result k x y b2 b3 (fun g => op (g z)) opcode writes
    (fun g g' h => congrArg op (h z (by simp [reads]))) runs

/-- A result computed from x[X] and x[Y]. -/
theorem ExecForm.binary {i : Instr} (k x y : Nibble) (b2 b3 : Byte) (op : Word → Word → Word)
    (opcode : i.opcode = opByte k) (writes : writtenRegs i = [x]) (reads : readRegs i = [x, y])
    (runs : ∀ s, exec i s = .next (s.writeResult k x y b2 b3 (op (s.reg x) (s.reg y)))) : ExecForm i :=
  .result k x y b2 b3 (fun g => op (g x) (g y)) opcode writes
    (fun g g' h => congrArg₂ op (h x (by simp [reads])) (h y (by simp [reads]))) runs

/-- Every instruction has one of the forms. -/
theorem execForm (i : Instr) : ExecForm i := by
  cases i with
  | movRi x y imm =>
    exact .result 0x0 x y (hiByte imm) (loByte imm) (fun _ => immWord imm) rfl rfl (fun _ _ _ => rfl) fun _ => rfl
  | movRr x y b2 b3 => exact .unary 0x1 x y b2 b3 id y rfl rfl rfl fun _ => rfl
  | movRm x y b2 b3 => exact .load x y b2 b3
  | movMr x y b2 b3 => exact .store x y b2 b3
  | cmp x y b2 b3 => exact .compare x y b2 b3
  | jmp x y off => exact .branch 0x5 x y off (fun _ => true) rfl (fun _ _ _ => rfl) fun _ => rfl
  | jg x y off => exact .branch 0x6 x y off Flags.gt rfl (fun _ _ h => h.1 x y off rfl) fun _ => rfl
  | jl x y off => exact .branch 0x7 x y off Flags.lt rfl (fun _ _ h => h.2.1 x y off rfl) fun _ => rfl
  | je x y off => exact .branch 0x8 x y off Flags.eq rfl (fun _ _ h => h.2.2 x y off rfl) fun _ => rfl
  | add x y b2 b3 => exact .binary 0x9 x y b2 b3 addWord rfl rfl rfl fun _ => rfl
  | sub x y b2 b3 => exact .binary 0xA x y b2 b3 subWord rfl rfl rfl fun _ => rfl
  | and x y b2 b3 => exact .binary 0xB x y b2 b3 (· &&& ·) rfl rfl rfl fun _ => rfl
  | or x y b2 b3 => exact .binary 0xC x y b2 b3 (· ||| ·) rfl rfl rfl fun _ => rfl
  | xor x y b2 b3 => exact .binary 0xD x y b2 b3 (· ^^^ ·) rfl rfl rfl fun _ => rfl
  | sal x y b2 b3 => exact .unary 0xE x y b2 b3 (salWord · b3) x rfl rfl rfl fun _ => rfl
  | sar x y b2 b3 => exact .unary 0xF x y b2 b3 (sarWord · b3) x rfl rfl rfl fun _ => rfl
  | unknown op x y b2 b3 => exact .skip op x y b2 b3

/-- Two next states of one outcome are the same state. -/
theorem eq_of_exec_next {i : Instr} {s t u : State} (ht : exec i s = .next t) (hu : exec i s = .next u) : t = u :=
  Host.Outcome.next.inj (ht.symm.trans hu)

/-! ### Loads and stores, by whether the access is admitted -/

theorem exec_movRm_of_admits {x y : Nibble} {b2 b3 : Byte} {s : State} (h : Admits (.movRm x y b2 b3) s) :
    exec (.movRm x y b2 b3) s = .next ((s.setReg x (s.loadValue (s.reg y).toInt.toNat)).retire 0x2#4 x y b2 b3
      (.load (s.reg y).toInt x (s.loadValue (s.reg y).toInt.toNat)) (s.pc + 4)) :=
  (execMovRm_cases x y b2 b3 s).elim And.right fun c => absurd h c.1

theorem exec_movRm_of_not_admits {x y : Nibble} {b2 b3 : Byte} {s : State} (h : ¬ Admits (.movRm x y b2 b3) s) :
    exec (.movRm x y b2 b3) s = .next (s.raise .memOutOfRange (.access (s.reg y).toInt 0x02#8)) :=
  (execMovRm_cases x y b2 b3 s).elim (fun c => absurd c.1 h) And.right

theorem exec_movMr_of_admits {x y : Nibble} {b2 b3 : Byte} {s : State} (h : Admits (.movMr x y b2 b3) s) :
    exec (.movMr x y b2 b3) s = .next ((s.storeWord (s.reg x).toInt.toNat (s.reg y)).retire 0x3#4 x y b2 b3
      (.store (s.reg x).toInt (storedByte (s.reg y) 0) (storedByte (s.reg y) 1) (storedByte (s.reg y) 2)
        (storedByte (s.reg y) 3)) (s.pc + 4)) :=
  (execMovMr_cases x y b2 b3 s).elim And.right fun c => absurd h c.1

theorem exec_movMr_of_not_admits {x y : Nibble} {b2 b3 : Byte} {s : State} (h : ¬ Admits (.movMr x y b2 b3) s) :
    exec (.movMr x y b2 b3) s = .next (s.raise .memOutOfRange (.access (s.reg x).toInt 0x03#8)) :=
  (execMovMr_cases x y b2 b3 s).elim (fun c => absurd c.1 h) And.right

/-! ### What an instruction leaves unchanged -/

/-- A register that an instruction does not write keeps its value (R22). -/
theorem exec_reg_of_not_written {i : Instr} {s t : State} {r : Nibble} (h : exec i s = .next t)
    (hr : r ∉ writtenRegs i) : t.reg r = s.reg r := by
  cases execForm i with
  | result k x y b2 b3 value _ writes _ runs =>
    obtain rfl := eq_of_exec_next h (runs s)
    exact (State.writeResult_spec s k x y b2 b3 _).2.1 r (by simpa [writes] using hr)
  | load x y b2 b3 =>
    rcases execMovRm_cases x y b2 b3 s with ⟨-, e⟩ | ⟨-, e⟩
    · obtain rfl := eq_of_exec_next h e
      exact State.reg_setReg_other s x r _ (by simpa [writtenRegs] using hr)
    · obtain rfl := eq_of_exec_next h e; rfl
  | store x y b2 b3 =>
    rcases execMovMr_cases x y b2 b3 s with ⟨-, e⟩ | ⟨-, e⟩ <;> obtain rfl := eq_of_exec_next h e <;> rfl
  | compare x y b2 b3 => cases h; rfl
  | branch k x y off taken _ _ runs => obtain rfl := eq_of_exec_next h (runs s); rfl
  | skip op x y b2 b3 => cases h; rfl

/-- Every instruction but CMP leaves the flags (R29, R148). -/
theorem exec_flags_of_ne_cmp {i : Instr} {s t : State} (h : exec i s = .next t)
    (hi : ∀ x y b2 b3, i ≠ .cmp x y b2 b3) : t.flags = s.flags := by
  cases execForm i with
  | result k x y b2 b3 value _ _ _ runs => obtain rfl := eq_of_exec_next h (runs s); rfl
  | load x y b2 b3 =>
    rcases execMovRm_cases x y b2 b3 s with ⟨-, e⟩ | ⟨-, e⟩ <;> obtain rfl := eq_of_exec_next h e <;> rfl
  | store x y b2 b3 =>
    rcases execMovMr_cases x y b2 b3 s with ⟨-, e⟩ | ⟨-, e⟩ <;> obtain rfl := eq_of_exec_next h e <;> rfl
  | compare x y b2 b3 => exact absurd rfl (hi x y b2 b3)
  | branch k x y off taken _ _ runs => obtain rfl := eq_of_exec_next h (runs s); rfl
  | skip op x y b2 b3 => cases h; rfl

/-! ### What an instruction does not read -/

/-- The last of two writes to a register stands. -/
@[simp] theorem State.setReg_setReg_same (s : State) (r : Nibble) (v w : Word) :
    (s.setReg r v).setReg r w = s.setReg r w := by
  simp [State.setReg]

/-- A write to a register that a later one overwrites is lost, whichever register is written in between. -/
theorem State.setReg_setReg_setReg (s : State) (r x : Nibble) (u v w : Word) :
    ((s.setReg r u).setReg x v).setReg r w = (s.setReg x v).setReg r w := by
  by_cases hx : x = r
  · subst hx; simp
  · have hne : r.toNat ≠ x.toNat := fun h => hx (BitVec.toNat_inj.mp h.symm)
    simp only [State.setReg, Vector.set_comm _ _ hne, Vector.set_set]

/-- Another value in a register that an instruction does not read reaches nothing but that register (R22). -/
theorem exec_setReg_of_not_read {i : Instr} {s t : State} {r : Nibble} (v : Word) (h : exec i s = .next t)
    (hr : r ∉ readRegs i) : ∃ u, exec i (s.setReg r v) = .next u ∧ u.setReg r 0#32 = t.setReg r 0#32 := by
  have same : ∀ q ∈ readRegs i, (s.setReg r v).reg q = s.reg q :=
    fun q hq => State.reg_setReg_other s r q v (ne_of_mem_of_not_mem hq hr)
  cases execForm i with
  | result k x y b2 b3 value _ _ reads runs =>
    obtain rfl := eq_of_exec_next h (runs s)
    refine ⟨_, runs _, ?_⟩
    rw [reads _ _ same]
    exact congrArg (State.retire · k x y b2 b3 _ _) (State.setReg_setReg_setReg s r x v _ _)
  | load x y b2 b3 =>
    have hy : (s.setReg r v).reg y = s.reg y := same y (by simp [readRegs])
    by_cases ha : Admits (.movRm x y b2 b3) s
    · obtain rfl := eq_of_exec_next h (exec_movRm_of_admits ha)
      refine ⟨_, exec_movRm_of_admits (by simpa only [Admits, hy] using ha), ?_⟩
      rw [hy]
      exact congrArg (State.retire · 0x2#4 x y b2 b3 _ _) (State.setReg_setReg_setReg s r x v _ _)
    · obtain rfl := eq_of_exec_next h (exec_movRm_of_not_admits ha)
      refine ⟨_, exec_movRm_of_not_admits (by simpa only [Admits, hy] using ha), ?_⟩
      rw [hy]
      exact State.setReg_setReg_same (State.raise ..) r v _
  | store x y b2 b3 =>
    have hx : (s.setReg r v).reg x = s.reg x := same x (by simp [readRegs])
    have hy : (s.setReg r v).reg y = s.reg y := same y (by simp [readRegs])
    refine ⟨t.setReg r v, ?_, t.setReg_setReg_same r v _⟩
    by_cases ha : Admits (.movMr x y b2 b3) s
    · obtain rfl := eq_of_exec_next h (exec_movMr_of_admits ha)
      rw [exec_movMr_of_admits (by simpa only [Admits, hx] using ha), hx, hy]
      rfl
    · obtain rfl := eq_of_exec_next h (exec_movMr_of_not_admits ha)
      rw [exec_movMr_of_not_admits (by simpa only [Admits, hx] using ha), hx]
      rfl
  | compare x y b2 b3 => exact ⟨t.setReg r v, by cases h; rfl, t.setReg_setReg_same r v _⟩
  | branch k x y off taken _ _ runs =>
    refine ⟨t.setReg r v, ?_, t.setReg_setReg_same r v _⟩
    obtain rfl := eq_of_exec_next h (runs s)
    exact runs _
  | skip op x y b2 b3 => exact ⟨t.setReg r v, by cases h; rfl, t.setReg_setReg_same r v _⟩

/-- Other flags reach nothing but the flags, if the one that the instruction reads is kept (R29, R148). -/
theorem exec_setFlags_of_agrees {i : Instr} {s t : State} {f : Flags} (h : exec i s = .next t)
    (hf : ReadFlagAgrees i f s.flags) : ∃ u, exec i (s.setFlags f) = .next u ∧ u.setFlags f = t.setFlags f := by
  cases execForm i with
  | result k x y b2 b3 value _ _ _ runs =>
    obtain rfl := eq_of_exec_next h (runs s)
    exact ⟨_, runs _, rfl⟩
  | load x y b2 b3 =>
    by_cases ha : Admits (.movRm x y b2 b3) s
    · obtain rfl := eq_of_exec_next h (exec_movRm_of_admits ha)
      exact ⟨_, exec_movRm_of_admits ha, rfl⟩
    · obtain rfl := eq_of_exec_next h (exec_movRm_of_not_admits ha)
      exact ⟨_, exec_movRm_of_not_admits ha, rfl⟩
  | store x y b2 b3 =>
    by_cases ha : Admits (.movMr x y b2 b3) s
    · obtain rfl := eq_of_exec_next h (exec_movMr_of_admits ha)
      exact ⟨_, exec_movMr_of_admits ha, rfl⟩
    · obtain rfl := eq_of_exec_next h (exec_movMr_of_not_admits ha)
      exact ⟨_, exec_movMr_of_not_admits ha, rfl⟩
  | compare x y b2 b3 => cases h; exact ⟨_, rfl, rfl⟩
  | branch k x y off taken _ reads runs =>
    obtain rfl := eq_of_exec_next h (runs s)
    refine ⟨_, runs _, ?_⟩
    rw [State.setFlags_flags, reads f s.flags hf]
    rfl
  | skip op x y b2 b3 => cases h; exact ⟨_, rfl, rfl⟩

/-- CMP takes nothing from the flags it overwrites (R120). -/
theorem exec_cmp_setFlags (x y : Nibble) (b2 b3 : Byte) (s : State) (f : Flags) :
    exec (.cmp x y b2 b3) (s.setFlags f) = exec (.cmp x y b2 b3) s := rfl

/-! ### The registers at the start of a run -/

@[simp] theorem State.reg_reset (r : Nibble) : State.reset.reg r = 0#32 := by
  simp [State.reset, State.reg]

@[simp] theorem State.reg_launch (prog tail : List Byte) (f : Flags) (r : Nibble) :
    (State.launch prog tail f).reg r = 0#32 := State.reg_reset r

/-! ### The obligations -/

/-- Settles O27: each instruction form leaves the registers outside its row, and takes its values from the row's alone. -/
theorem registersReadAndWrittenByRow : Obligations.RegistersReadAndWrittenByRow :=
  fun _ _ _ h => ⟨fun _ => exec_reg_of_not_written h, fun _ v => exec_setReg_of_not_read v h⟩

/-- Settles O28: by the instruction's form; only a jump's own flag decides it. -/
theorem flagsWrittenByCompareReadByJumps : Obligations.FlagsWrittenByCompareReadByJumps :=
  ⟨fun _ _ _ hi h => exec_flags_of_ne_cmp h hi, exec_cmp_setFlags,
    fun _ _ _ _ h hg hl he => exec_setFlags_of_agrees h ⟨hg, hl, he⟩⟩

/-- Settles O44: a launch keeps the registers and the pc of reset. -/
theorem registersAndPcStartAtZero : Obligations.RegistersAndPcStartAtZero :=
  fun prog tail f => ⟨State.reg_launch prog tail f, rfl⟩

end Sys2Proof.Machine

/-! Proofs of the statements of spec/20_memory.md: the byte order of a store. -/

namespace Sys2Proof.Machine

/-- Byte `k` of a stored word stands `k` addresses above the store's (R46, R110). -/
theorem State.byte_storeWord_add (s : State) (a : Nat) (v : Word) {k : Nat} (hk : k < 4) :
    (s.storeWord a v).byte (a + k) = storedByte v k := by
  rw [State.byte_storeWord]
  interval_cases k <;> simp

/-- Everything an admitted store does: the word's four bytes, and the end of the step; the rest stays (R110). -/
theorem exec_movMr_spec {x y : Nibble} {b2 b3 : Byte} {s : State} (h : Admits (.movMr x y b2 b3) s) :
    ∃ t, exec (.movMr x y b2 b3) s = .next t ∧
      (∀ k < 4, t.byte ((s.reg x).toInt.toNat + k) = storedByte (s.reg y) k) ∧
      SameMemBut (s.reg x).toInt.toNat s t ∧
      SameRegs s t ∧ t.flags = s.flags ∧ Counted 0x3 s t ∧ SameControl s t ∧ t.pc = s.pc + 4 :=
  ⟨_, exec_movMr_of_admits h, fun _ hk => s.byte_storeWord_add _ _ hk, s.storeWord_sameMemBut _ _,
    fun _ => rfl, rfl, State.retire_counted (s.storeWord _ _) .., ⟨rfl, rfl, rfl⟩, rfl⟩

/-- Settles O10: the four bytes of `exec_movMr_spec` are the slices of x[Y] from bit 31 down. -/
theorem storeWritesBigEndian : Obligations.StoreWritesBigEndian := by
  intro x y b2 b3 s hlo hhi
  obtain ⟨t, ht, bytes, frame⟩ := exec_movMr_spec (b2 := b2) (b3 := b3) (y := y) ⟨hlo, hhi⟩
  exact ⟨t, ht, bytes 0 (by decide), bytes 1 (by decide), bytes 2 (by decide), bytes 3 (by decide), frame⟩

end Sys2Proof.Machine

/-! Proofs of the statements of spec/30_encoding.md: decoding is total on four bytes and loses no bit. -/

namespace Sys2Proof

/-- What an instruction must be to stand for the word `op ob b2 b3`: of that opcode byte, and encoded as these bytes. -/
def Instr.StandsFor (i : Instr) (op ob b2 b3 : Byte) : Prop :=
  i.wellFormed = true ∧ i.opcode = op ∧ encode i = [op, ob, b2, b3]

/-- An opcode byte of 0x10 or more selects UNKNOWN (R70). -/
theorem decodeWord_of_ge {op : Byte} (h : 0x10 ≤ op.toNat) (ob b2 b3 : Byte) :
    decodeWord op ob b2 b3 = .unknown op (highNibble ob) (lowNibble ob) b2 b3 := by
  unfold decodeWord
  split
  case h_17 => rfl
  all_goals omega

/-- Each of the 16 operations keeps every field of the word it is decoded from (R69). -/
theorem decodeWord_standsFor_of_lt {op : Byte} (h : op.toNat < 0x10) (ob b2 b3 : Byte) :
    (decodeWord op ob b2 b3).StandsFor op ob b2 b3 := by
  obtain ⟨n, hn, rfl⟩ : ∃ n < 0x10, op = BitVec.ofNat 8 n := ⟨op.toNat, h, by simp⟩
  interval_cases n <;> refine ⟨rfl, rfl, ?_⟩ <;> simp [decodeWord, encode, encodeBytes, encodeHalf]

/-- No bit of any word is lost by decoding it (R73). -/
theorem decodeWord_standsFor (op ob b2 b3 : Byte) : (decodeWord op ob b2 b3).StandsFor op ob b2 b3 := by
  by_cases h : op.toNat < 0x10
  · exact decodeWord_standsFor_of_lt h ob b2 b3
  · have hge : 0x10 ≤ op.toNat := Nat.le_of_not_lt h
    rw [decodeWord_of_ge hge]
    exact ⟨decide_eq_true hge, rfl, by simp [encode, encodeBytes]⟩

/-- The opcode byte alone says whether a well-formed instruction is UNKNOWN (R69, R70). -/
theorem opcode_ge_iff_unknown {i : Instr} (h : i.wellFormed = true) :
    0x10 ≤ i.opcode.toNat ↔ ∃ x y b2 b3, i = .unknown i.opcode x y b2 b3 := by
  cases i with
  | unknown op x y b2 b3 => exact ⟨fun _ => ⟨x, y, b2, b3, rfl⟩, fun _ => of_decide_eq_true h⟩
  | _ => simp [Instr.opcode]

/-- Settles O2: the one instruction of a word is the one that `decodeWord` gives. -/
theorem everyWordIsOneInstr : Obligations.EveryWordIsOneInstr := by
  intro op ob b2 b3 rest
  obtain ⟨wf, opcode, word⟩ := decodeWord_standsFor op ob b2 b3
  have unknown := opcode_ge_iff_unknown wf
  rw [opcode] at unknown
  exact ⟨decodeWord op ob b2 b3, rfl, wf, opcode, word, unknown⟩

end Sys2Proof

/-! Proofs of the statements of spec/40_engine.md: the next pc, and the end of a run. -/

namespace Sys2Proof.Machine

/-! ### The next pc -/

/-- An instruction whose access is admitted sends the pc where R87 says and touches neither LEN, run state nor fault
record. Only the load and the store need the hypothesis; each jump is decided by the flag that `pcAfter` names. -/
theorem exec_pc_of_admits {i : Instr} {s : State} (h : Admits i s) :
    ∃ t, exec i s = .next t ∧ t.pc = pcAfter i s ∧ SameControl s t := by
  cases i with
  | movRm x y b2 b3 => exact ⟨_, exec_movRm_of_admits h, rfl, rfl, rfl, rfl⟩
  | movMr x y b2 b3 => exact ⟨_, exec_movMr_of_admits h, rfl, rfl, rfl, rfl⟩
  | jmp | jg | jl | je => exact ⟨_, rfl, (State.branch_spec ..).1, rfl, rfl, rfl⟩
  | _ => exact ⟨_, rfl, rfl, rfl, rfl, rfl⟩

/-- Settles O18: `exec_pc_of_admits`, of whose frame it asks the run state. -/
theorem nextPcOfEveryInstr : Obligations.NextPcOfEveryInstr := by
  intro i s h
  obtain ⟨t, ht, pc, -, run, -⟩ := exec_pc_of_admits h
  exact ⟨t, ht, pc, run⟩

/-! ### The end of a run -/

/-- While RUN, a step is the engine's (R80). -/
theorem step_of_run {s : State} (h : s.run = .run) : step s = engineStep s := by
  rw [step, h]

/-- In EXIT the machine takes no step (R80). -/
theorem step_of_exit {s : State} (h : s.run = .exit) : step s = .fault .afterExit := by
  rw [step, h]

/-- The check that pc is at or past LEN comes before every other one (R81, R97). -/
theorem step_of_len_le_pc {s : State} (hrun : s.run = .run) (hpc : (s.len : Int) ≤ s.pc) :
    step s = .next s.enterExit :=
  (step_of_run hrun).trans (if_pos hpc)

/-- Settles O34: the step is `State.enterExit`, after which `step` stops by name. -/
theorem exitAtOrPastLength : Obligations.ExitAtOrPastLength := by
  intro s hrun hpc
  have terminal (u : State) : step s.enterExit ≠ .next u := by
    simp [step_of_exit s.enterExit_run]
  exact ⟨s.enterExit, step_of_len_le_pc hrun hpc, s.enterExit_run, ⟨s.pc, s.enterExit_trace⟩, s.enterExit_regs,
    s.enterExit_pc, s.enterExit_flags, s.enterExit_hist, s.enterExit_mem, s.enterExit_len, s.enterExit_fault,
    terminal⟩

end Sys2Proof.Machine

/-! Proofs of the statements of spec/41_data_movement.md: the two MOV forms between registers and immediates. -/

namespace Sys2Proof.Machine

/-- What an instruction whose only result is x[X] leaves unchanged, and how its step ends (R85, R87). -/
theorem State.writeResult_frame (s : State) (k x y : Nibble) (b2 b3 : Byte) (v : Word) :
    let t := s.writeResult k x y b2 b3 v
    SameRegsBut x s t ∧ t.flags = s.flags ∧ SameMem s t ∧ Counted k s t ∧ SameControl s t ∧ t.pc = s.pc + 4 := by
  obtain ⟨-, regs, pc, counted, -, flags, mem, control⟩ := s.writeResult_spec k x y b2 b3 v
  exact ⟨regs, flags, mem, counted, control, pc⟩

/-- A result equal to the value that x[X] already holds changes no register. -/
theorem State.writeResult_sameRegs {s : State} {x : Nibble} {v : Word} (h : v = s.reg x) (k y : Nibble)
    (b2 b3 : Byte) : SameRegs s (s.writeResult k x y b2 b3 v) := by
  intro r
  obtain ⟨value, others, -⟩ := s.writeResult_spec k x y b2 b3 v
  by_cases hr : r = x
  · rw [hr, value, h]
  · exact others r hr

/-- Sign extension keeps the signed value of an immediate (R65). -/
theorem toInt_immWord (imm : Half) : (immWord imm).toInt = imm.toInt :=
  BitVec.toInt_signExtend_of_le (by decide)

/-- The opcode byte 0x01 selects MOV_RR, with the fields of its word in place (R61, R69). -/
theorem decodeWord_movRr (x y : Nibble) (b2 b3 : Byte) :
    decodeWord 0x01#8 (operandByte x y) b2 b3 = .movRr x y b2 b3 := by
  simp [decodeWord]

/-- Settles O6: the value written is the immediate widened by `immWord`. -/
theorem movImmediateSignExtends : Obligations.MovImmediateSignExtends := by
  intro x y imm s
  have value := (s.writeResult_spec 0x0 x y (hiByte imm) (loByte imm) (immWord imm)).1
  exact ⟨_, rfl, (congrArg BitVec.toInt value).trans (toInt_immWord imm), s.writeResult_frame ..⟩

/-- Settles O7: the value written is x[Y], which with X = Y is what x[X] holds already. -/
theorem movRegisterCopies : Obligations.MovRegisterCopies := by
  intro x y b2 b3 s
  have value := (s.writeResult_spec 0x1 x y b2 b3 (s.reg y)).1
  have unchanged (h : x = y) : SameRegs s (s.writeResult 0x1 x y b2 b3 (s.reg y)) :=
    State.writeResult_sameRegs (congrArg s.reg h.symm) 0x1 y b2 b3
  exact ⟨decodeWord_movRr x y b2 b3, _, rfl, value, unchanged, s.writeResult_frame ..⟩

end Sys2Proof.Machine

/-! Proofs of the statements of spec/42_compare_branch.md: a comparison and the conditional jump after it. -/

namespace Sys2Proof.Machine

@[simp] theorem compareFlags_gt_iff (x y : Nibble) : (compareFlags x y).gt = true ↔ y.toNat < x.toNat :=
  decide_eq_true_iff
@[simp] theorem compareFlags_lt_iff (x y : Nibble) : (compareFlags x y).lt = true ↔ x.toNat < y.toNat :=
  decide_eq_true_iff
@[simp] theorem compareFlags_eq_iff (x y : Nibble) : (compareFlags x y).eq = true ↔ x.toNat = y.toNat :=
  decide_eq_true_iff

/-- CMP never faults, and the flags it leaves are those of its two indices, whatever the state before it (R120). -/
theorem exec_cmp_flags (x y : Nibble) (b2 b3 : Byte) (s : State) :
    ∃ t, exec (.cmp x y b2 b3) s = .next t ∧ t.flags = compareFlags x y :=
  ⟨_, rfl, rfl⟩

/-- A jump decided by a flag that stands for `p` goes to its target exactly when `p` holds (R87). -/
theorem State.branch_pc_of_iff (s : State) (k x y : Nibble) (off : Half) {c : Bool} {p : Prop} [Decidable p]
    (h : c = true ↔ p) : (s.branch k x y off c).pc = if p then s.pc + off.toInt + 4 else s.pc + 4 :=
  (s.branch_spec k x y off c).1.trans (if_congr h rfl rfl)

/-- Settles O15: each jump is decided by its own flag, and CMP has made that flag the comparison of the indices. -/
theorem compareThenBranchTakenIff : Obligations.CompareThenBranchTakenIff := by
  intro x y x' y' b2 b3 off s
  obtain ⟨t, ht, flags⟩ := exec_cmp_flags x y b2 b3 s
  have greater : t.flags.gt = true ↔ y.toNat < x.toNat := by rw [flags, compareFlags_gt_iff]
  have less : t.flags.lt = true ↔ x.toNat < y.toNat := by rw [flags, compareFlags_lt_iff]
  have equal : t.flags.eq = true ↔ x.toNat = y.toNat := by rw [flags, compareFlags_eq_iff]
  exact ⟨t, _, _, _, ht, rfl, rfl, rfl, t.branch_pc_of_iff 0x6 x' y' off greater,
    t.branch_pc_of_iff 0x7 x' y' off less, t.branch_pc_of_iff 0x8 x' y' off equal⟩

end Sys2Proof.Machine

/-! Proofs of the statements of spec/43_alu.md: the bitwise operations. -/

namespace Sys2Proof.Machine

/-- The opcode bytes 0x0B, 0x0C and 0x0D select AND, OR and XOR, with the fields of the word in place (R61, R69). -/
theorem decodeWord_bitwise (x y : Nibble) (b2 b3 : Byte) :
    decodeWord 0x0B#8 (operandByte x y) b2 b3 = .and x y b2 b3 ∧
      decodeWord 0x0C#8 (operandByte x y) b2 b3 = .or x y b2 b3 ∧
      decodeWord 0x0D#8 (operandByte x y) b2 b3 = .xor x y b2 b3 := by
  simp [decodeWord]

/-- The register an instruction writes its result to holds that result. -/
@[simp] theorem State.reg_writeResult_same (s : State) (k x y : Nibble) (b2 b3 : Byte) (v : Word) :
    (s.writeResult k x y b2 b3 v).reg x = v :=
  (s.writeResult_spec k x y b2 b3 v).1

/-- Settles O23: each operation writes the word operation of x[X] and x[Y], whose bits and whose value with X = Y are
those of the `BitVec` laws. -/
theorem bitwiseOperations : Obligations.BitwiseOperations := by
  intro x y b2 b3 s
  obtain ⟨decodeAnd, decodeOr, decodeXor⟩ := decodeWord_bitwise x y b2 b3
  refine
    ⟨⟨decodeAnd, s.writeResult 0xB x y b2 b3 (s.reg x &&& s.reg y), rfl, ?andBits, ?andSame, ?andZero,
        s.writeResult_frame ..⟩,
      ⟨decodeOr, s.writeResult 0xC x y b2 b3 (s.reg x ||| s.reg y), rfl, ?orBits, ?orSame, s.writeResult_frame ..⟩,
      ⟨decodeXor, s.writeResult 0xD x y b2 b3 (s.reg x ^^^ s.reg y), rfl, ?xorBits, ?xorSame,
        s.writeResult_frame ..⟩⟩
  case andBits => intro k _; rw [State.reg_writeResult_same, BitVec.getLsbD_and]
  case andSame => rintro rfl; rw [State.reg_writeResult_same, BitVec.and_self]
  case andZero => intro zero; rw [State.reg_writeResult_same, zero, BitVec.and_zero]
  case orBits => intro k _; rw [State.reg_writeResult_same, BitVec.getLsbD_or]
  case orSame => rintro rfl; rw [State.reg_writeResult_same, BitVec.or_self]
  case xorBits => intro k _; rw [State.reg_writeResult_same, BitVec.getLsbD_xor]
  case xorSame => rintro rfl; rw [State.reg_writeResult_same, BitVec.xor_self]

end Sys2Proof.Machine

/-! Proofs of the statements of spec/70_reset_and_hazards.md: the load before a run. -/

namespace Sys2Proof.Machine

/-- LEN counts the bytes supplied, up to the size of the buffer (R187). -/
@[simp] theorem State.len_launch (prog tail : List Byte) (f : Flags) :
    (State.launch prog tail f).len = min prog.length Config.memBytes :=
  List.length_take.trans (Nat.min_comm ..)

/-- What a launch puts at each address: program bytes, then TAIL_INIT, cut to the size of the buffer (R42, R187). -/
theorem State.byte_launch (prog tail : List Byte) (f : Flags) (a : Nat) :
    (State.launch prog tail f).byte a =
      ((prog.take Config.memBytes ++ tail).take Config.memBytes)[a]?.getD Config.unlistedByte :=
  Memory.read_place _ 0 a []

/-- Below LEN the buffer holds the program (R187). -/
theorem State.byte_launch_of_lt_len {prog tail : List Byte} {f : Flags} {a : Nat}
    (h : a < (State.launch prog tail f).len) : some ((State.launch prog tail f).byte a) = prog[a]? := by
  rw [State.len_launch, Nat.lt_min] at h
  obtain ⟨inProg, inBuffer⟩ := h
  have loaded : a < (prog.take Config.memBytes).length := by
    rw [List.length_take]
    exact Nat.lt_min.mpr ⟨inBuffer, inProg⟩
  rw [State.byte_launch, List.getElem?_take_of_lt inBuffer, List.getElem?_append_left loaded,
    List.getElem?_take_of_lt inBuffer, List.getElem?_eq_getElem inProg, Option.getD_some]

/-- Bytes past the size of the buffer are not loaded (R187). -/
theorem State.launch_take (prog tail : List Byte) (f : Flags) :
    State.launch (prog.take Config.memBytes) tail f = State.launch prog tail f := by
  simp only [State.launch, List.take_take, Nat.min_self]

/-- Settles O45: LEN, the bytes below it and the bytes cut off, each by its law of `State.launch`. -/
theorem launchLoadsTheProgram : Obligations.LaunchLoadsTheProgram :=
  fun prog tail f =>
    ⟨State.len_launch prog tail f, fun _ => State.byte_launch_of_lt_len, (State.launch_take prog tail f).symm⟩

end Sys2Proof.Machine

/-! Proofs of the statements of spec/30_encoding.md: the decoder takes back what the encoder gives, and the opcode map. -/

namespace Sys2Proof

/-- The word of a well-formed instruction decodes to it. UNKNOWN needs that its opcode byte is out of range; a 16-bit
field is packed again from the bytes it was cut into. -/
theorem decodeWord_of_encode {i : Instr} (h : i.wellFormed = true) {op ob b2 b3 : Byte}
    (word : encode i = [op, ob, b2, b3]) : decodeWord op ob b2 b3 = i := by
  cases i with
  | unknown op' x y c2 c3 =>
    simp only [encode, encodeBytes, List.cons.injEq, and_true] at word
    obtain ⟨rfl, rfl, rfl, rfl⟩ := word
    rw [decodeWord_of_ge (of_decide_eq_true h), highNibble_operandByte, lowNibble_operandByte]
  | _ =>
    simp only [encode, encodeBytes, encodeHalf, List.cons.injEq, and_true] at word
    obtain ⟨rfl, rfl, rfl, rfl⟩ := word
    simp [decodeWord]

/-- Settles O1: an instruction's word is four bytes, and these decode to it. -/
theorem encodedInstrDecodesBack : Obligations.EncodedInstrDecodesBack := by
  intro i rest h
  obtain ⟨op, ob, b2, b3, word⟩ : ∃ op ob b2 b3, encode i = [op, ob, b2, b3] := by
    cases i <;> exact ⟨_, _, _, _, rfl⟩
  have decoded : decode (op :: ob :: b2 :: b3 :: rest) = .ok (decodeWord op ob b2 b3, rest) := rfl
  rw [word]
  exact decoded.trans (by rw [decodeWord_of_encode h word])

/-- The word of formats RI and B whose 16-bit field is packed from two bytes holds these bytes (R64). -/
theorem encodeHalf_pack16 (op : Byte) (x y : Nibble) (b2 b3 : Byte) :
    encodeHalf op x y (pack16 b2 b3) = [op, operandByte x y, b2, b3] := by
  simp [encodeHalf]

/-- Settles O3: each of the 16 words is the encoding of the operation that its opcode byte selects. -/
theorem opcodeSelectsOperation : Obligations.OpcodeSelectsOperation := by
  intro x y b2 b3
  have half {i : Instr} {op : Byte} (wf : i.wellFormed = true) (word : encode i = encodeHalf op x y (pack16 b2 b3)) :
      decodeWord op (operandByte x y) b2 b3 = i :=
    decodeWord_of_encode wf (word.trans (encodeHalf_pack16 op x y b2 b3))
  have bytes {i : Instr} {op : Byte} (wf : i.wellFormed = true) (word : encode i = encodeBytes op x y b2 b3) :
      decodeWord op (operandByte x y) b2 b3 = i :=
    decodeWord_of_encode wf word
  exact ⟨half rfl rfl, bytes rfl rfl, bytes rfl rfl, bytes rfl rfl, bytes rfl rfl, half rfl rfl, half rfl rfl,
    half rfl rfl, half rfl rfl, bytes rfl rfl, bytes rfl rfl, bytes rfl rfl, bytes rfl rfl, bytes rfl rfl,
    bytes rfl rfl, bytes rfl rfl⟩

/-- Settles O4: the eight words, each decoded. -/
theorem vectorWordsDecode : Obligations.VectorWordsDecode :=
  ⟨rfl, rfl, rfl, rfl, rfl, rfl, rfl, rfl⟩

end Sys2Proof

/-! What an instruction and a step can do, said once: the facts that the statements of the sections below are proved from. -/

namespace Sys2Proof.Machine

/-! ### How an instruction ends -/

/-- The two ways an instruction that does not fault ends in `t` (R85, R70): an operation retires, from a state `u` that its
own effect leads to, or an out-of-range opcode is skipped. -/
inductive Finishes (i : Instr) (s : State) : State → Prop
  | retired (u : State) (k x y : Nibble) (b2 b3 : Byte) (e : Effect) (n : Int)
      (word : encode i = [opByte k, operandByte x y, b2, b3]) (opcode : i.opcode = opByte k)
      (pc : u.pc = s.pc) (hist : u.hist = s.hist) (trace : u.trace = s.trace) :
      Finishes i s (u.retire k x y b2 b3 e n)
  | skipped (op : Byte) (x y : Nibble) (b2 b3 : Byte) (unknown : i = .unknown op x y b2 b3) :
      Finishes i s (s.skip op x y b2 b3)

theorem exec_finishes {i : Instr} {s : State} (h : Admits i s) : ∃ t, exec i s = .next t ∧ Finishes i s t := by
  cases i with
  | movRm x y b2 b3 => exact ⟨_, exec_movRm_of_admits h, .retired _ _ _ _ _ _ _ _ rfl rfl rfl rfl rfl⟩
  | movMr x y b2 b3 => exact ⟨_, exec_movMr_of_admits h, .retired _ _ _ _ _ _ _ _ rfl rfl rfl rfl rfl⟩
  | unknown op x y b2 b3 => exact ⟨_, rfl, .skipped op x y b2 b3 rfl⟩
  | _ => exact ⟨_, rfl, .retired _ _ _ _ _ _ _ _ rfl rfl rfl rfl rfl⟩

/-- An instruction whose access is not admitted takes MEM_OUT_OF_RANGE and does nothing else (R89, R163). -/
theorem exec_of_not_admits {i : Instr} {s : State} (h : ¬ Admits i s) :
    ∃ a op, exec i s = .next (s.raise .memOutOfRange (.access a op)) := by
  cases i with
  | movRm x y b2 b3 => exact ⟨_, _, exec_movRm_of_not_admits h⟩
  | movMr x y b2 b3 => exact ⟨_, _, exec_movMr_of_not_admits h⟩
  | _ => exact absurd trivial h

/-- What an instruction did: it finished, with its next pc and with LEN, run state and fault record kept, or it took
MEM_OUT_OF_RANGE. -/
theorem exec_cases {i : Instr} {s t : State} (h : exec i s = .next t) :
    (Admits i s ∧ Finishes i s t ∧ t.pc = pcAfter i s ∧ SameControl s t) ∨
      (¬ Admits i s ∧ ∃ a op, t = s.raise .memOutOfRange (.access a op)) := by
  by_cases admits : Admits i s
  · obtain ⟨u, hu, finishes⟩ := exec_finishes admits
    obtain ⟨v, hv, pc, control⟩ := exec_pc_of_admits admits
    obtain rfl := eq_of_exec_next h hu
    obtain rfl := eq_of_exec_next h hv
    exact .inl ⟨admits, finishes, pc, control⟩
  · obtain ⟨a, op, hu⟩ := exec_of_not_admits admits
    exact .inr ⟨admits, a, op, eq_of_exec_next h hu⟩

/-- Every instruction answers a next state (R163). -/
theorem exec_answers (i : Instr) (s : State) : ∃ t, exec i s = .next t := by
  by_cases admits : Admits i s
  · obtain ⟨t, ht, -⟩ := exec_finishes admits
    exact ⟨t, ht⟩
  · obtain ⟨a, op, ht⟩ := exec_of_not_admits admits
    exact ⟨_, ht⟩

/-- From RUN an instruction ends in RUN, or in FAULT if its access is not admitted (R89, R163). -/
theorem exec_run {i : Instr} {s t : State} (hrun : s.run = .run) (h : exec i s = .next t) :
    Admits i s ∧ t.run = .run ∨ ¬ Admits i s ∧ t.run = .fault := by
  obtain ⟨admits, -, -, -, run, -⟩ | ⟨not_admits, a, op, rfl⟩ := exec_cases h
  · exact .inl ⟨admits, run.trans hrun⟩
  · exact .inr ⟨not_admits, rfl⟩

theorem exec_len {i : Instr} {s t : State} (h : exec i s = .next t) : t.len = s.len := by
  obtain ⟨-, -, -, len, -⟩ | ⟨-, a, op, rfl⟩ := exec_cases h
  · exact len
  · rfl

/-- Only an admitted store writes to the buffer (R55, R110). -/
theorem exec_mem_eq_or_store {i : Instr} {s t : State} (h : exec i s = .next t) :
    t.mem = s.mem ∨ ∃ x y b2 b3, i = .movMr x y b2 b3 ∧ Admits i s ∧
      t.mem = (s.storeWord (s.reg x).toInt.toNat (s.reg y)).mem := by
  cases execForm i with
  | result k x y b2 b3 value _ _ _ runs => obtain rfl := eq_of_exec_next h (runs s); exact .inl rfl
  | load x y b2 b3 =>
    rcases execMovRm_cases x y b2 b3 s with ⟨-, e⟩ | ⟨-, e⟩ <;> obtain rfl := eq_of_exec_next h e <;> exact .inl rfl
  | store x y b2 b3 =>
    rcases execMovMr_cases x y b2 b3 s with ⟨admits, e⟩ | ⟨-, e⟩
    · obtain rfl := eq_of_exec_next h e
      exact .inr ⟨x, y, b2, b3, rfl, admits, rfl⟩
    · obtain rfl := eq_of_exec_next h e
      exact .inl rfl
  | compare x y b2 b3 => cases h; exact .inl rfl
  | branch k x y off taken _ _ runs => obtain rfl := eq_of_exec_next h (runs s); exact .inl rfl
  | skip op x y b2 b3 => cases h; exact .inl rfl

/-! ### What a step does, by where the pc stands (R81 to R86) -/

theorem step_of_fault {s : State} (h : s.run = .fault) : step s = .fault .afterFault := by
  rw [step, h]

theorem step_of_pc_neg {s : State} (hrun : s.run = .run) (hpc : s.pc < 0) :
    step s = .next (s.raise .pcNegative (.pcValue s.pc)) := by
  have inProgram : ¬ (s.len : Int) ≤ s.pc := by omega
  rw [step_of_run hrun, engineStep, if_neg inProgram, if_pos hpc]

theorem step_of_pc_past_lastWord {s : State} (hrun : s.run = .run) (hlen : s.pc < s.len) (hpc : 124 < s.pc) :
    step s = .next (s.raise .fetchOutOfRange (.pcValue s.pc)) := by
  have nonneg : ¬ s.pc < 0 := by omega
  rw [step_of_run hrun, engineStep, if_neg (not_le.mpr hlen), if_neg nonneg, if_pos hpc]

theorem step_of_fetches {s : State} (h : s.Fetches) : step s = exec (s.fetch s.pc.toNat) s := by
  obtain ⟨run, nonneg, inProgram, inBuffer⟩ := h
  rw [step_of_run run, engineStep, if_neg (not_le.mpr inProgram), if_neg (not_lt.mpr nonneg), if_neg (not_lt.mpr inBuffer)]

/-- A machine in RUN takes a step (R163). -/
theorem step_answers {s : State} (hrun : s.run = .run) : ∃ t, step s = .next t := by
  by_cases past : (s.len : Int) ≤ s.pc
  · exact ⟨_, step_of_len_le_pc hrun past⟩
  by_cases neg : s.pc < 0
  · exact ⟨_, step_of_pc_neg hrun neg⟩
  by_cases out : 124 < s.pc
  · exact ⟨_, step_of_pc_past_lastWord hrun (not_le.mp past) out⟩
  · rw [step_of_fetches ⟨hrun, not_lt.mp neg, not_le.mp past, not_lt.mp out⟩]
    exact exec_answers _ s

/-- What a step that answers a next state did: it ended the run, took a fault, at the fetch or at the instruction's
access, or finished the fetched instruction. -/
theorem step_ends {s t : State} (h : step s = .next t) :
    s.run = .run ∧
      ((s.len ≤ s.pc ∧ t = s.enterExit) ∨
       (s.pc < s.len ∧ (s.pc < 0 ∨ 124 < s.pc ∨ ¬ Admits (s.fetch s.pc.toNat) s) ∧ ∃ c info, t = s.raise c info) ∨
       (s.Fetches ∧ Admits (s.fetch s.pc.toNat) s ∧ exec (s.fetch s.pc.toNat) s = .next t)) := by
  obtain ⟨hrun, ⟨past, rfl⟩ | ⟨inProgram, neg, rfl⟩ | ⟨inProgram, out, rfl⟩ | ⟨inProgram, nonneg, inBuffer, ht⟩⟩ :=
    step_cases h
  · exact ⟨hrun, .inl ⟨past, rfl⟩⟩
  · exact ⟨hrun, .inr (.inl ⟨inProgram, .inl neg, _, _, rfl⟩)⟩
  · exact ⟨hrun, .inr (.inl ⟨inProgram, .inr (.inl out), _, _, rfl⟩)⟩
  · obtain ⟨admits, -⟩ | ⟨not_admits, a, op, rfl⟩ := exec_cases ht
    · exact ⟨hrun, .inr (.inr ⟨⟨hrun, nonneg, inProgram, inBuffer⟩, admits, ht⟩)⟩
    · exact ⟨hrun, .inr (.inl ⟨inProgram, .inr (.inr not_admits), _, _, rfl⟩)⟩

end Sys2Proof.Machine

/-! Proofs of the statements about the invariant (section 8 of spec/10_state.md). -/

namespace Sys2Proof.Machine

/-- The next pc is the one after the instruction or the target of an offset (R87). -/
theorem pcAfter_eq (i : Instr) (s : State) :
    pcAfter i s = s.pc + 4 ∨ ∃ off : Half, pcAfter i s = s.pc + off.toInt + 4 := by
  cases i with
  | jmp x y off => exact .inr ⟨off, rfl⟩
  | jg x y off | jl x y off | je x y off => exact (ite_eq_or_eq ..).symm.imp_right fun target => ⟨off, target⟩
  | _ => exact .inl rfl

/-- From a pc at which a step fetches, every next pc is in the range of R24. -/
theorem pcAfter_range {s : State} (i : Instr) (hlo : 0 ≤ s.pc) (hhi : s.pc ≤ 124) :
    -32764 ≤ pcAfter i s ∧ pcAfter i s ≤ 32898 := by
  obtain next | ⟨off, target⟩ := pcAfter_eq i s
  · omega
  · have := off.le_toInt
    have := off.toInt_lt
    omega

theorem exec_mem_wf {i : Instr} {s t : State} (h : exec i s = .next t) (wf : s.mem.wf) : t.mem.wf := by
  obtain mem | ⟨x, y, b2, b3, rfl, ⟨hlo, hhi⟩, mem⟩ := exec_mem_eq_or_store h
  · exact mem ▸ wf
  · exact mem ▸ s.storeWord_wf _ _ wf (by simp only [Config.memBytes]; omega)

/-- In RUN the invariant holds no fault record, so a state with the same record that is not in FAULT keeps it. -/
theorem State.Inv.fault_iff_of_ne {s t : State} (inv : s.Inv) (hrun : s.run = .run) (same : t.fault = s.fault)
    (ht : t.run ≠ .fault) : t.run = .fault ↔ t.fault.isSome := by
  have noRecord : ¬ s.fault.isSome := fun record => absurd (inv.fault_iff.mpr record) (by simp [hrun])
  exact iff_of_false ht (same ▸ noRecord)

/-- Settles O49: of the ways a step ends, only an admitted instruction changes memory or the pc, and only a fault sets the
fault record. -/
theorem invKeptByEveryStep : Obligations.InvKeptByEveryStep := by
  intro s t inv h
  obtain ⟨hrun, ⟨-, rfl⟩ | ⟨-, -, c, info, rfl⟩ | ⟨⟨-, nonneg, -, inBuffer⟩, admits, ht⟩⟩ := step_ends h
  case inl => exact ⟨inv.mem_wf, inv.len_le, inv.pc_ge, inv.pc_le, inv.fault_iff_of_ne hrun rfl (by simp)⟩
  case inr.inl => exact ⟨inv.mem_wf, inv.len_le, inv.pc_ge, inv.pc_le, by simp⟩
  case inr.inr =>
    obtain ⟨u, hu, pc, len, run, fault⟩ := exec_pc_of_admits admits
    obtain rfl := eq_of_exec_next ht hu
    obtain ⟨pc_ge, pc_le⟩ := pcAfter_range (s.fetch s.pc.toNat) nonneg inBuffer
    exact ⟨exec_mem_wf ht inv.mem_wf, len ▸ inv.len_le, pc ▸ pc_ge, pc ▸ pc_le,
      inv.fault_iff_of_ne hrun fault (by simp [run, hrun])⟩

/-- Settles O50: the range of the invariant is inside the signed 32-bit range. -/
theorem pcFitsItsRegister : Obligations.PcFitsItsRegister := by
  intro s inv
  have := inv.pc_ge
  have := inv.pc_le
  exact BitVec.toInt_ofInt_eq_self (by decide) (by omega) (by omega)

/-- Settles O51: nothing is listed in the buffer of reset, and its fields stand inside their ranges. -/
theorem invAtReset : Obligations.InvAtReset :=
  ⟨State.reset_mem_wf, by decide, by decide, by decide, by decide⟩

/-- Settles O52: the launched buffer is canonical, LEN is cut at the buffer's size, and the rest is as at reset. -/
theorem invAtEveryLaunch : Obligations.InvAtEveryLaunch := by
  intro prog tail f
  have reset := invAtReset
  refine ⟨State.launch_mem_wf prog tail f, ?len, reset.pc_ge, reset.pc_le, reset.fault_iff⟩
  case len => exact (State.len_launch prog tail f).trans_le (Nat.min_le_right ..)

end Sys2Proof.Machine

/-! Proofs of the statements of spec/40_engine.md and spec/60_exceptions.md: what a step runs, counts, records and leaves. -/

namespace Sys2Proof.Machine

/-! ### Which step is taken -/

/-- Settles O33: the instruction is the one fetched, and the machine is one that fetches. -/
theorem stepRunsDecodedInstr : Obligations.StepRunsDecodedInstr := by
  intro s i run nonneg inProgram inBuffer decoded
  obtain rfl : s.fetch s.pc.toNat = i := congrArg Prod.fst (Except.ok.inj decoded)
  exact step_of_fetches ⟨run, nonneg, inProgram, inBuffer⟩

/-- Settles O35: each fetch fault is `State.raise` of its cause. -/
theorem fetchFaults : Obligations.FetchFaults := by
  intro s hrun inProgram
  exact ⟨step_of_pc_neg hrun, fun _ out => step_of_pc_past_lastWord hrun inProgram (by omega)⟩

/-- Settles O36: in EXIT and in FAULT the machine stops by name. -/
theorem terminalStatesTakeNoStep : Obligations.TerminalStatesTakeNoStep :=
  fun _ => ⟨step_of_exit, step_of_fault⟩

/-- Settles O39: every instruction answers, and `step` stops only outside RUN. -/
theorem everyOperationIsTotal : Obligations.EveryOperationIsTotal :=
  ⟨exec_answers, fun _ => ⟨fun ⟨_, h⟩ => (step_ends h).1, step_answers⟩⟩

/-! ### Faults -/

/-- A step that ends in FAULT met a condition of the fault table and did nothing but take the fault. -/
theorem step_fault {s t : State} (h : step s = .next t) (ht : t.run = .fault) :
    s.pc < s.len ∧ (s.pc < 0 ∨ 124 < s.pc ∨ ¬ Admits (s.fetch s.pc.toNat) s) ∧ ∃ c info, t = s.raise c info := by
  obtain ⟨hrun, ⟨-, rfl⟩ | faulted | ⟨-, admits, executed⟩⟩ := step_ends h
  · simp at ht
  · exact faulted
  · obtain ⟨-, run⟩ | ⟨not_admits, -⟩ := exec_run hrun executed
    · simp [run] at ht
    · exact absurd admits not_admits

/-- Settles O37: the step is `State.raise`. -/
theorem faultCommitsNothing : Obligations.FaultCommitsNothing := by
  intro s t h ht
  obtain ⟨-, -, c, info, rfl⟩ := step_fault h ht
  obtain ⟨-, fault, emitted, regs, pc, flags, hist, mem, len⟩ := s.raise_spec c info
  exact ⟨regs, pc, flags, hist, mem, len, c, info, fault, emitted⟩

/-- Settles O38: a machine in RUN takes a step, and neither EXIT nor an admitted instruction ends in FAULT. -/
theorem faultsExactlyWhen : Obligations.FaultsExactlyWhen := by
  intro s hrun
  constructor
  · rintro ⟨t, h, ht⟩
    obtain ⟨inProgram, condition, -⟩ := step_fault h ht
    exact ⟨inProgram, condition⟩
  · rintro ⟨inProgram, condition⟩
    obtain ⟨t, h⟩ := step_answers hrun
    refine ⟨t, h, ?_⟩
    obtain ⟨-, ⟨past, -⟩ | ⟨-, -, c, info, rfl⟩ | ⟨⟨-, nonneg, -, inBuffer⟩, admits, -⟩⟩ := step_ends h
    · omega
    · rfl
    · rcases condition with neg | out | not_admits
      · omega
      · omega
      · exact absurd admits not_admits

/-! ### Memory -/

/-- A byte that an instruction changes is one of the four that an admitted store writes (R55, R110). -/
theorem exec_byte_ne {i : Instr} {s t : State} {a : Nat} (h : exec i s = .next t) (changed : t.byte a ≠ s.byte a) :
    ∃ x y b2 b3, i = .movMr x y b2 b3 ∧
      0 ≤ (s.reg x).toInt ∧ (s.reg x).toInt.toNat ≤ a ∧ a ≤ (s.reg x).toInt.toNat + 3 ∧ a ≤ 127 := by
  obtain mem | ⟨x, y, b2, b3, rfl, ⟨hlo, hhi⟩, mem⟩ := exec_mem_eq_or_store h
  · exact absurd (congrArg (Memory.read · a) mem) changed
  · have written : (s.reg x).toInt.toNat ≤ a ∧ a ≤ (s.reg x).toInt.toNat + 3 := by
      by_contra outside
      exact changed ((congrArg (Memory.read · a) mem).trans (s.storeWord_sameMemBut _ _ a outside))
    exact ⟨x, y, b2, b3, rfl, hlo, written.1, written.2, by omega⟩

/-- Settles O40: only an executed instruction touches the buffer, and no step touches LEN. -/
theorem memoryChangesOnlyByStore : Obligations.MemoryChangesOnlyByStore := by
  intro s t h
  obtain ⟨-, ⟨-, rfl⟩ | ⟨-, -, c, info, rfl⟩ | ⟨-, -, executed⟩⟩ := step_ends h
  · exact ⟨rfl, fun a changed => absurd rfl changed⟩
  · exact ⟨rfl, fun a changed => absurd rfl changed⟩
  · exact ⟨exec_len executed, fun a changed => exec_byte_ne executed changed⟩

/-! ### Counters -/

@[simp] theorem toNat_opByte (k : Nibble) : (opByte k).toNat = k.toNat := by
  rw [opByte, BitVec.toNat_append, BitVec.toNat_zero, Nat.zero_shiftLeft, Nat.zero_or]

/-- A well-formed instruction that finishes counts at its opcode byte, which for UNKNOWN is no counter's (R70, R85). -/
theorem Finishes.counter {i : Instr} {s t : State} (h : Finishes i s t) (wf : i.wellFormed = true) (k : Nibble) :
    t.counter k = s.counter k + if k.toNat = i.opcode.toNat then 1 else 0 := by
  cases h with
  | retired u j x y b2 b3 e n word opcode pc hist trace =>
    have counted : (u.retire j x y b2 b3 e n).counter k = if k = j then u.counter j + 1 else u.counter k :=
      u.counter_count j k
    have before (q : Nibble) : u.counter q = s.counter q := by rw [State.counter, State.counter, hist]
    rw [counted, opcode, toNat_opByte, before, before]
    by_cases hk : k = j
    · rw [if_pos hk, if_pos (congrArg BitVec.toNat hk), hk]
    · rw [if_neg hk, if_neg fun same => hk (BitVec.toNat_inj.mp same), Nat.add_zero]
  | skipped op x y b2 b3 unknown =>
    subst unknown
    have outOfRange : 0x10 ≤ op.toNat := of_decide_eq_true wf
    have inRange := k.isLt
    have differ : k.toNat ≠ (Instr.unknown op x y b2 b3).opcode.toNat := by rw [Instr.opcode]; omega
    rw [if_neg differ, State.counter_skip, Nat.add_zero]

/-- Settles O31: an admitted instruction finishes. -/
theorem counterOfTheOpcodeCounts : Obligations.CounterOfTheOpcodeCounts := by
  intro i s wf admits
  obtain ⟨t, ht, finishes⟩ := exec_finishes admits
  exact ⟨t, ht, finishes.counter wf⟩

/-- Counting adds 1 to the sum of the counters. -/
theorem State.sum_hist_count (s : State) (k : Nibble) : (s.count k).hist.toList.sum = s.hist.toList.sum + 1 := by
  have hk : k.toNat < s.hist.toList.length := by simpa using k.isLt
  have split (v : Nat) : (s.hist.toList.set k.toNat v).sum =
      (s.hist.toList.take k.toNat).sum + v + (s.hist.toList.drop (k.toNat + 1)).sum := by
    rw [List.sum_set, if_pos hk]
  have before : s.hist.toList.sum = _ := (congrArg List.sum (List.set_getElem_self hk)).symm.trans (split _)
  rw [Vector.getElem_toList] at before
  rw [State.count_hist, Vector.toList_set, split, before, State.counter]
  omega

/-- A well-formed instruction that finishes adds 1 to the sum of the counters if its opcode is in range (R70, R85). -/
theorem Finishes.sum_hist {i : Instr} {s t : State} (h : Finishes i s t) (wf : i.wellFormed = true) :
    t.hist.toList.sum = s.hist.toList.sum + if i.opcode.toNat < 0x10 then 1 else 0 := by
  cases h with
  | retired u k x y b2 b3 e n word opcode pc hist trace =>
    have inRange : i.opcode.toNat < 0x10 := by rw [opcode, toNat_opByte]; exact k.isLt
    rw [if_pos inRange, ← hist]
    exact u.sum_hist_count k
  | skipped op x y b2 b3 unknown =>
    subst unknown
    have outOfRange : 0x10 ≤ op.toNat := of_decide_eq_true wf
    rw [Instr.opcode, if_neg (not_lt.mpr outOfRange), State.skip_hist, Nat.add_zero]

/-- The fetched instruction is well-formed, and its opcode and its word are the bytes at the address (R83). -/
theorem State.fetch_standsFor (s : State) (p : Nat) :
    (s.fetch p).StandsFor (s.byte p) (s.byte (p + 1)) (s.byte (p + 2)) (s.byte (p + 3)) :=
  decodeWord_standsFor ..

/-- Settles O32: only a step that stays in RUN finishes an instruction, the fetched one, whose opcode is the byte at pc. -/
theorem counterSumCountsExecuted : Obligations.CounterSumCountsExecuted := by
  intro s t h
  obtain ⟨hrun, ⟨-, rfl⟩ | ⟨-, -, c, info, rfl⟩ | ⟨-, admits, executed⟩⟩ := step_ends h
  · simp
  · simp
  · obtain ⟨wf, opcode, -⟩ := s.fetch_standsFor s.pc.toNat
    obtain ⟨u, hu, finishes⟩ := exec_finishes admits
    obtain rfl := eq_of_exec_next executed hu
    obtain ⟨-, run⟩ | ⟨not_admits, -⟩ := exec_run hrun executed
    · rw [finishes.sum_hist wf, opcode]
      simp only [run, true_and]
    · exact absurd admits not_admits

/-! ### Records -/

/-- An instruction that finishes hands over one trace record, with every field of its word (R93). -/
theorem Finishes.emitted {i : Instr} {s t : State} (h : Finishes i s t) :
    ∃ x y b2 b3 e, encode i = [i.opcode, operandByte x y, b2, b3] ∧ Emitted (.trace s.pc i.opcode x y b2 b3 e) s t := by
  cases h with
  | retired u k x y b2 b3 e n word opcode pc hist trace =>
    refine ⟨x, y, b2, b3, e, opcode ▸ word, ?_⟩
    rw [Emitted, State.retire_trace, opcode, pc, trace]
  | skipped op x y b2 b3 unknown =>
    subst unknown
    exact ⟨x, y, b2, b3, .unknown, rfl, rfl⟩

/-- Settles O41: the exit record, the fault record, or the trace record of the fetched instruction, whose word is the four
bytes at pc. -/
theorem everyStepHandsOneRecord : Obligations.EveryStepHandsOneRecord := by
  intro s t h
  obtain ⟨hrun, ⟨-, rfl⟩ | ⟨-, -, c, info, rfl⟩ | ⟨-, admits, executed⟩⟩ := step_ends h
  · exact .inl ⟨rfl, rfl⟩
  · exact .inr (.inl ⟨rfl, c, info, rfl⟩)
  · obtain ⟨u, hu, finishes⟩ := exec_finishes admits
    obtain rfl := eq_of_exec_next executed hu
    obtain ⟨-, run⟩ | ⟨not_admits, -⟩ := exec_run hrun executed
    · obtain ⟨-, opcode, word⟩ := s.fetch_standsFor s.pc.toNat
      obtain ⟨x, y, b2, b3, e, word', emitted⟩ := finishes.emitted
      obtain ⟨-, operand, rfl, rfl⟩ : _ ∧ operandByte x y = s.byte (s.pc.toNat + 1) ∧ b2 = s.byte (s.pc.toNat + 2) ∧
          b3 = s.byte (s.pc.toNat + 3) := by
        simpa only [List.cons.injEq, and_true] using word'.symm.trans word
      exact .inr (.inr ⟨run, x, y, e, operand, opcode ▸ emitted⟩)
    · exact absurd admits not_admits

/-- `s` with other counters and other records in the sink. -/
def State.withSink (s : State) (h : Vector Nat 16) (l : List Record) : State := { s with hist := h, trace := l }

/-- `u`, which came from a state with the sink's records `l`, differs from `t`, which came from `s`, in counters and
records at most, and both came with the same one record. -/
def SameButSink (s : State) (l : List Record) (t u : State) : Prop :=
  u = t.withSink u.hist u.trace ∧ ∃ r, t.trace = r :: s.trace ∧ u.trace = r :: l

/-- No instruction reads the counters or the sink's records (R32, R93). -/
theorem exec_withSink {i : Instr} {s t : State} (h : Vector Nat 16) (l : List Record) (ht : exec i s = .next t) :
    ∃ u, exec i (s.withSink h l) = .next u ∧ SameButSink s l t u := by
  cases execForm i with
  | result k x y b2 b3 value _ _ _ runs =>
    obtain rfl := eq_of_exec_next ht (runs s)
    exact ⟨_, runs _, rfl, _, rfl, rfl⟩
  | load x y b2 b3 =>
    by_cases admits : Admits (.movRm x y b2 b3) s
    · obtain rfl := eq_of_exec_next ht (exec_movRm_of_admits admits)
      exact ⟨_, exec_movRm_of_admits admits, rfl, _, rfl, rfl⟩
    · obtain rfl := eq_of_exec_next ht (exec_movRm_of_not_admits admits)
      exact ⟨_, exec_movRm_of_not_admits admits, rfl, _, rfl, rfl⟩
  | store x y b2 b3 =>
    by_cases admits : Admits (.movMr x y b2 b3) s
    · obtain rfl := eq_of_exec_next ht (exec_movMr_of_admits admits)
      exact ⟨_, exec_movMr_of_admits admits, rfl, _, rfl, rfl⟩
    · obtain rfl := eq_of_exec_next ht (exec_movMr_of_not_admits admits)
      exact ⟨_, exec_movMr_of_not_admits admits, rfl, _, rfl, rfl⟩
  | compare x y b2 b3 => cases ht; exact ⟨_, rfl, rfl, _, rfl, rfl⟩
  | branch k x y off taken _ _ runs =>
    obtain rfl := eq_of_exec_next ht (runs s)
    exact ⟨_, runs _, rfl, _, rfl, rfl⟩
  | skip op x y b2 b3 => cases ht; exact ⟨_, rfl, rfl, _, rfl, rfl⟩

/-- No step reads the counters or the sink's records: the checks and the fetch see neither. -/
theorem step_withSink {s t : State} (h : Vector Nat 16) (l : List Record) (ht : step s = .next t) :
    ∃ u, step (s.withSink h l) = .next u ∧ SameButSink s l t u := by
  obtain ⟨hrun, ⟨past, rfl⟩ | ⟨-, neg, rfl⟩ | ⟨inProgram, out, rfl⟩ | ⟨inProgram, nonneg, inBuffer, executed⟩⟩ :=
    step_cases ht
  · exact ⟨_, step_of_len_le_pc hrun past, rfl, _, rfl, rfl⟩
  · exact ⟨_, step_of_pc_neg hrun neg, rfl, _, rfl, rfl⟩
  · exact ⟨_, step_of_pc_past_lastWord hrun inProgram out, rfl, _, rfl, rfl⟩
  · rw [step_of_fetches (s := s.withSink h l) ⟨hrun, nonneg, inProgram, inBuffer⟩]
    exact exec_withSink h l executed

/-- Settles O43: `step_withSink`. -/
theorem countersAndRecordsAreNeverRead : Obligations.CountersAndRecordsAreNeverRead :=
  fun _ _ h l ht => step_withSink h l ht

/-! ### A placed word, and the two ends of a run -/

/-- Where `State.loadAtPc` places a word, four bytes of the buffer begin (R45). -/
theorem State.loadAtPc_pc_range (s : State) (bs : List Byte) :
    0 ≤ (s.loadAtPc bs).pc ∧ (s.loadAtPc bs).pc ≤ 124 := by
  unfold State.loadAtPc
  dsimp only [Config.lastWord]
  split
  · assumption
  · decide

/-- After placing bytes at its pc a machine is about to fetch. -/
theorem State.loadAtPc_fetches (s : State) (bs : List Byte) : (s.loadAtPc bs).Fetches := by
  obtain ⟨nonneg, inBuffer⟩ := s.loadAtPc_pc_range bs
  have len : (s.loadAtPc bs).len = max s.len ((s.loadAtPc bs).pc.toNat + 4) := rfl
  exact ⟨rfl, nonneg, by omega, inBuffer⟩

/-- The placed bytes stand at the pc. -/
theorem State.byte_loadAtPc (s : State) (bs : List Byte) {k : Nat} (hk : k < bs.length) :
    (s.loadAtPc bs).byte ((s.loadAtPc bs).pc.toNat + k) = bs[k] := by
  have placed : (s.loadAtPc bs).mem = Memory.place bs (s.loadAtPc bs).pc.toNat s.mem := rfl
  rw [State.byte, placed, Memory.read_place, if_pos (Nat.le_add_right ..), Nat.add_sub_cancel_left,
    List.getElem?_eq_getElem hk, Option.getD_some]

/-- What the machine fetches after four bytes were placed at its pc. -/
theorem State.fetch_loadAtPc (s : State) (op ob b2 b3 : Byte) :
    let t := s.loadAtPc [op, ob, b2, b3]
    t.fetch t.pc.toNat = decodeWord op ob b2 b3 := by
  have byte (k : Nat) (hk : k < 4) := s.byte_loadAtPc [op, ob, b2, b3] (k := k) hk
  exact congr (congr (congrArg₂ decodeWord (byte 0 (by decide)) (byte 1 (by decide))) (byte 2 (by decide)))
    (byte 3 (by decide))

/-- Settles O54: the machine fetches the four placed bytes, and the decoder reads `i` from them. -/
theorem placedWordRunsNext : Obligations.PlacedWordRunsNext := by
  intro s w i decoded
  have fetches : (s.withFetchWord 32 w).Fetches := s.loadAtPc_fetches (tableBytes 32 w)
  have fetched : (s.withFetchWord 32 w).fetch (s.withFetchWord 32 w).pc.toNat = i :=
    (s.fetch_loadAtPc ..).trans (Option.some.inj decoded)
  exact ⟨fetches, fetched ▸ step_of_fetches fetches⟩

end Sys2Proof.Machine

/-! Proofs of the statements of spec/41_data_movement.md: the load, the store before a load, and accesses that fault. -/

namespace Sys2Proof.Machine

/-! ### The load -/

/-- Everything an admitted load does: the value composed at the address read before the write, and the end of the step; the
rest stays (R106). -/
theorem exec_movRm_spec {x y : Nibble} {b2 b3 : Byte} {s : State} (h : Admits (.movRm x y b2 b3) s) :
    ∃ t, exec (.movRm x y b2 b3) s = .next t ∧ t.reg x = s.loadValue (s.reg y).toInt.toNat ∧
      SameRegsBut x s t ∧ t.flags = s.flags ∧ SameMem s t ∧ Counted 0x2 s t ∧ SameControl s t ∧ t.pc = s.pc + 4 :=
  ⟨_, exec_movRm_of_admits h, s.reg_setReg_same x _, fun r hr => s.reg_setReg_other x r _ hr, rfl, fun _ => rfl,
    State.retire_counted (s.setReg x _) .., ⟨rfl, rfl, rfl⟩, rfl⟩

/-- A byte shifted by at most 12 places loses no bit of a word. -/
theorem toNat_shiftLeft_byte (b : Byte) {n : Nat} (hn : n ≤ 12) :
    (b.setWidth 32 <<< n).toNat = b.toNat <<< n := by
  have fits : b.toNat * 2 ^ n < 2 ^ 32 :=
    calc b.toNat * 2 ^ n ≤ b.toNat * 2 ^ 12 := Nat.mul_le_mul_left _ (Nat.pow_le_pow_right (by decide) hn)
      _ < 2 ^ 8 * 2 ^ 12 := Nat.mul_lt_mul_of_pos_right b.isLt (by decide)
      _ < 2 ^ 32 := by decide
  rw [BitVec.toNat_shiftLeft, BitVec.toNat_setWidth_of_le (by decide), Nat.shiftLeft_eq, Nat.mod_eq_of_lt fits]

/-- The composition in numbers: no bit is lost (R106). -/
theorem toNat_composeNibbles (b0 b1 b2 b3 : Byte) :
    (composeNibbles b0 b1 b2 b3).toNat =
      (b0.toNat <<< 12) ||| (b1.toNat <<< 8) ||| (b2.toNat <<< 4) ||| b3.toNat := by
  simp only [composeNibbles, BitVec.toNat_or]
  rw [toNat_shiftLeft_byte b0 (by decide), toNat_shiftLeft_byte b1 (by decide), toNat_shiftLeft_byte b2 (by decide),
    BitVec.toNat_setWidth_of_le (by decide)]

/-- A composition is below a power of two that is above each of its four parts. -/
theorem toNat_composeNibbles_lt {b0 b1 b2 b3 : Byte} {n : Nat} (h0 : b0.toNat * 2 ^ 12 < 2 ^ n)
    (h1 : b1.toNat * 2 ^ 8 < 2 ^ n) (h2 : b2.toNat * 2 ^ 4 < 2 ^ n) (h3 : b3.toNat < 2 ^ n) :
    (composeNibbles b0 b1 b2 b3).toNat < 2 ^ n := by
  rw [toNat_composeNibbles, Nat.shiftLeft_eq, Nat.shiftLeft_eq, Nat.shiftLeft_eq]
  exact Nat.or_lt_two_pow (Nat.or_lt_two_pow (Nat.or_lt_two_pow h0 h1) h2) h3

/-- Any composition has 20 bits (R107). -/
theorem toNat_composeNibbles_lt_two_pow_20 (b0 b1 b2 b3 : Byte) : (composeNibbles b0 b1 b2 b3).toNat < 2 ^ 20 := by
  have := b0.isLt
  have := b1.isLt
  have := b2.isLt
  have := b3.isLt
  exact toNat_composeNibbles_lt (by omega) (by omega) (by omega) (by omega)

/-- Settles O8: the value of `exec_movRm_spec`, in numbers. -/
theorem loadComposesNibbles : Obligations.LoadComposesNibbles := by
  intro x y b2 b3 s hlo hhi
  obtain ⟨t, ht, value, frame⟩ := exec_movRm_spec (x := x) (b2 := b2) (b3 := b3) ⟨hlo, hhi⟩
  exact ⟨t, ht, (congrArg BitVec.toNat value).trans (toNat_composeNibbles ..), frame⟩

/-- Settles O9: a composition has 20 bits. -/
theorem loadedValueHasTwentyBits : Obligations.LoadedValueHasTwentyBits := by
  intro x y b2 b3 s hlo hhi
  obtain ⟨t, ht, value, -⟩ := exec_movRm_spec (x := x) (b2 := b2) (b3 := b3) ⟨hlo, hhi⟩
  have bound : (t.reg x).toNat < 2 ^ 20 := value ▸ toNat_composeNibbles_lt_two_pow_20 ..
  refine ⟨t, ht, Nat.le_of_lt_succ bound, BitVec.toInt_pos_iff.mpr (by omega), fun k hk => ?_⟩
  rw [← BitVec.testBit_toNat]
  exact Nat.testBit_lt_two_pow (bound.trans_le (Nat.pow_le_pow_right (by decide) hk))

/-! ### An access outside the buffer -/

/-- Settles O11: neither access is admitted. -/
theorem accessOutsideBufferFaults : Obligations.AccessOutsideBufferFaults := by
  intro x y b2 b3 s
  have outside {a : Int} (h : a < 0 ∨ 124 < a) : ¬ (0 ≤ a ∧ a ≤ 124) := by omega
  exact ⟨fun h => exec_movRm_of_not_admits (outside h), fun h => exec_movMr_of_not_admits (outside h)⟩

/-! ### A store, then a load of the same address -/

/-- What a load gives where `v` was stored: the composition of the word's own four bytes (R112). -/
def reload (v : Word) : Word := composeNibbles (storedByte v 0) (storedByte v 1) (storedByte v 2) (storedByte v 3)

theorem toNat_storedByte (v : Word) (k : Nat) : (storedByte v k).toNat = v.toNat >>> (24 - 8 * k) % 256 :=
  BitVec.extractLsb'_toNat ..

theorem toNat_reload (v : Word) :
    (reload v).toNat = ((v.toNat >>> 24 % 256) <<< 12) ||| ((v.toNat >>> 16 % 256) <<< 8) |||
      ((v.toNat >>> 8 % 256) <<< 4) ||| (v.toNat % 256) := by
  simp only [reload, toNat_composeNibbles, toNat_storedByte]
  rfl

/-- A word that fits a byte stands in the last of its stored bytes; the other three are 0. -/
theorem storedByte_of_lt {v : Word} (h : v.toNat < 256) :
    (∀ k < 3, storedByte v k = 0x00#8) ∧ (storedByte v 3).toNat = v.toNat := by
  refine ⟨fun k hk => BitVec.eq_of_toNat_eq ?_, (toNat_storedByte v 3).trans (Nat.mod_eq_of_lt h)⟩
  have shift : 8 ≤ 24 - 8 * k := by omega
  have shifted : v.toNat >>> (24 - 8 * k) = 0 :=
    Nat.shiftRight_eq_zero _ _ (h.trans_le (Nat.pow_le_pow_right (n := 2) (by decide) shift))
  rw [toNat_storedByte, shifted]
  rfl

/-- A stored value that fits a byte is loaded back. -/
theorem reload_of_lt {v : Word} (h : v.toNat < 256) : reload v = v := by
  obtain ⟨zero, last⟩ := storedByte_of_lt h
  apply BitVec.eq_of_toNat_eq
  rw [reload, toNat_composeNibbles, zero 0 (by decide), zero 1 (by decide), zero 2 (by decide), last]
  simp

/-- What is loaded back is below a power of two that is above each byte of the word, moved to its place. -/
theorem toNat_reload_lt {v : Word} {n : Nat} (h0 : v.toNat / 2 ^ 24 % 256 * 2 ^ 12 < 2 ^ n)
    (h1 : v.toNat / 2 ^ 16 % 256 * 2 ^ 8 < 2 ^ n) (h2 : v.toNat / 2 ^ 8 % 256 * 2 ^ 4 < 2 ^ n)
    (h3 : v.toNat % 256 < 2 ^ n) : (reload v).toNat < 2 ^ n := by
  have byte (k : Nat) : (storedByte v k).toNat = v.toNat / 2 ^ (24 - 8 * k) % 256 := by
    rw [toNat_storedByte, Nat.shiftRight_eq_div_pow]
  exact toNat_composeNibbles_lt (by rw [byte 0]; exact h0) (by rw [byte 1]; exact h1) (by rw [byte 2]; exact h2)
    (by simpa [byte 3] using h3)

/-- Only a value that fits a byte is loaded back. A composition has 20 bits; a word equal to it has them too, and its
composition is then smaller, until one byte is left. -/
theorem lt_of_reload_eq {v : Word} (h : reload v = v) : v.toNat < 256 := by
  have same : v.toNat = (reload v).toNat := congrArg BitVec.toNat h.symm
  have bits20 : v.toNat < 2 ^ 20 := same.trans_lt (toNat_composeNibbles_lt_two_pow_20 ..)
  have bits12 : v.toNat < 2 ^ 12 :=
    same.trans_lt (toNat_reload_lt (n := 12) (by omega) (by omega) (by omega) (by omega))
  exact same.trans_lt (toNat_reload_lt (n := 8) (by omega) (by omega) (by omega) (by omega))

/-- Which signed values fit a byte. -/
theorem toNat_lt_256_iff (v : Word) : v.toNat < 256 ↔ 0 ≤ v.toInt ∧ v.toInt ≤ 255 := by
  have := v.isLt
  rw [BitVec.toInt_eq_toNat_cond]
  split <;> omega

theorem reload_eq_iff (v : Word) : reload v = v ↔ 0 ≤ v.toInt ∧ v.toInt ≤ 255 := by
  rw [← toNat_lt_256_iff]
  exact ⟨lt_of_reload_eq, reload_of_lt⟩

/-- Settles O12: the load finds the address register unchanged and the stored bytes in place, and gives `reload`. -/
theorem storeThenLoadIsIdentityOnBytesOnly : Obligations.StoreThenLoadIsIdentityOnBytesOnly := by
  intro x y z b2 b3 c2 c3 s hlo hhi
  obtain ⟨t, ht, bytes, -, regs, -⟩ := exec_movMr_spec (y := y) (b2 := b2) (b3 := b3) ⟨hlo, hhi⟩
  have admits : Admits (.movRm z x c2 c3) t := by rw [Admits, regs x]; exact ⟨hlo, hhi⟩
  obtain ⟨u, hu, value, -⟩ := exec_movRm_spec admits
  have loaded : u.reg z = reload (s.reg y) := by
    rw [value, regs x, State.loadValue, bytes 1 (by decide), bytes 2 (by decide), bytes 3 (by decide)]
    exact congrArg (composeNibbles · _ _ _) (bytes 0 (by decide))
  exact ⟨t, u, ht, hu, loaded ▸ toNat_reload _, loaded ▸ reload_eq_iff _⟩

/-- Settles O13: the four bytes fetched are the ones stored. -/
theorem storedWordIsNextInstr : Obligations.StoredWordIsNextInstr := by
  intro x y b2 b3 s t hlo hhi ht fetches pc
  obtain ⟨u, hu, bytes, -⟩ := exec_movMr_spec (y := y) (b2 := b2) (b3 := b3) ⟨hlo, hhi⟩
  obtain rfl := eq_of_exec_next ht hu
  have fetched : t.fetch t.pc.toNat = decodeWord (storedByte (s.reg y) 0) (storedByte (s.reg y) 1)
      (storedByte (s.reg y) 2) (storedByte (s.reg y) 3) := by
    rw [pc, State.fetch, bytes 1 (by decide), bytes 2 (by decide), bytes 3 (by decide)]
    exact congrArg (decodeWord · _ _ _) (bytes 0 (by decide))
  rw [step_of_fetches fetches, fetched]
  rfl

end Sys2Proof.Machine

/-! Proofs of the statements of spec/42_compare_branch.md: CMP, the jumps, and the step after a jump. -/

namespace Sys2Proof.Machine

/-! ### CMP -/

/-- Of the three flags CMP sets exactly one (R122). -/
theorem compareFlags_one_set (x y : Nibble) :
    compareFlags x y = ⟨true, false, false⟩ ∨ compareFlags x y = ⟨false, true, false⟩ ∨
      compareFlags x y = ⟨false, false, true⟩ := by
  rcases Nat.lt_trichotomy x.toNat y.toNat with less | equal | greater
  · exact .inr (.inl (by simp [compareFlags, less, less.not_gt, less.ne]))
  · exact .inr (.inr (by simp [compareFlags, equal]))
  · exact .inl (by simp [compareFlags, greater, greater.not_gt, greater.ne'])

/-- Settles O14: CMP sets `compareFlags` of its indices and retires. -/
theorem compareSetsFlagsFromIndices : Obligations.CompareSetsFlagsFromIndices := by
  intro x y b2 b3 s
  obtain ⟨pc, counted, -, regs, -, mem, control⟩ :=
    (s.setFlags (compareFlags x y)).retire_spec 0x4 x y b2 b3 (.flags (compareFlags x y)) (nextPc s.pc)
  exact ⟨_, rfl, compareFlags_gt_iff x y, compareFlags_lt_iff x y, (compareFlags_eq_iff x y).trans BitVec.toNat_inj,
    compareFlags_one_set x y, regs, mem, counted, control, pc⟩

/-! ### Jumps -/

/-- What a jump leaves unchanged, and its counter (R85, R123). -/
theorem State.branch_frame (s : State) (k x y : Nibble) (off : Half) (c : Bool) :
    let t := s.branch k x y off c
    SameRegs s t ∧ t.flags = s.flags ∧ SameMem s t ∧ Counted k s t ∧ SameControl s t := by
  obtain ⟨-, counted, -, regs, flags, mem, control⟩ := s.branch_spec k x y off c
  exact ⟨regs, flags, mem, counted, control⟩

/-- JMP goes to its target in every state (R123). -/
theorem exec_jmp (x y : Nibble) (off : Half) (s : State) :
    ∃ t, exec (.jmp x y off) s = .next t ∧ t.pc = s.pc + off.toInt + 4 ∧
      SameRegs s t ∧ t.flags = s.flags ∧ SameMem s t ∧ Counted 0x5 s t ∧ SameControl s t :=
  ⟨_, rfl, (s.branch_spec 0x5 x y off true).1, s.branch_frame 0x5 x y off true⟩

/-- Settles O16: the offsets 0 and -4 are two cases of the target. -/
theorem jumpGoesToTarget : Obligations.JumpGoesToTarget := by
  intro x y off s
  obtain ⟨t, ht, pc, frame⟩ := exec_jmp x y off s
  have fallsThrough (h : off = 0#16) : t.pc = s.pc + 4 := by subst h; simpa using pc
  have stays (h : off = 0xFFFC#16) : t.pc = s.pc := by
    rw [pc, h, show (0xFFFC#16 : Half).toInt = -4 by decide, Int.neg_add_cancel_right]
  exact ⟨t, ht, pc, fallsThrough, stays, frame⟩

/-- Settles O17: each jump is `State.branch`, decided by its own flag. -/
theorem conditionalJumpsReadTheirFlag : Obligations.ConditionalJumpsReadTheirFlag :=
  fun x y off s =>
    ⟨⟨_, rfl, s.branch_pc_of_iff 0x6 x y off Iff.rfl, s.branch_frame 0x6 x y off s.flags.gt⟩,
      ⟨_, rfl, s.branch_pc_of_iff 0x7 x y off Iff.rfl, s.branch_frame 0x7 x y off s.flags.lt⟩,
      ⟨_, rfl, s.branch_pc_of_iff 0x8 x y off Iff.rfl, s.branch_frame 0x8 x y off s.flags.eq⟩⟩

/-- The offset of a label is the distance from the instruction after the jump (R74). -/
theorem toInt_of_labelOffset {pc l : Int} {off : Half} (h : labelOffset pc l = some off) :
    off.toInt = l - (pc + 4) := by
  obtain ⟨inRange, rfl⟩ : (-32768 ≤ l - (pc + 4) ∧ l - (pc + 4) ≤ 32767) ∧ BitVec.ofInt 16 (l - (pc + 4)) = off := by
    simpa [labelOffset] using h
  exact BitVec.toInt_ofInt_eq_self (by decide) (by omega) (by omega)

/-- Settles O21: the target of the label's offset is the label. -/
theorem assembledJumpReachesLabel : Obligations.AssembledJumpReachesLabel := by
  intro x y off l s h
  obtain ⟨t, ht, pc, -⟩ := exec_jmp x y off s
  have offset := toInt_of_labelOffset h
  exact ⟨t, ht, by omega⟩

/-! ### The step after a jump -/

/-- Settles O20: JMP keeps LEN and RUN, so the next step is decided by where the target lies. -/
theorem jumpTargetDecidesNextStep : Obligations.JumpTargetDecidesNextStep := by
  intro x y off s t hrun ht
  obtain ⟨u, hu, pc, -, -, -, -, len, run, -⟩ := exec_jmp x y off s
  obtain rfl := eq_of_exec_next ht hu
  have hrun' : t.run = .run := run.trans hrun
  rw [← pc, ← len]
  refine ⟨fun past => ⟨_, step_of_len_le_pc hrun' past, rfl⟩, fun neg => ⟨_, step_of_pc_neg hrun' neg, rfl, rfl⟩, ?_⟩
  exact fun nonneg inProgram inBuffer => step_of_fetches ⟨hrun', nonneg, inProgram, inBuffer⟩

/-- A fetch reads the buffer alone (R83). -/
theorem State.fetch_eq_of_sameMem {s t : State} (h : SameMem s t) (p : Nat) : t.fetch p = s.fetch p := by
  simp only [State.fetch, h _]

/-- Settles O19: the offset -4 leads back, and JMP changes neither the buffer nor LEN nor the run state. -/
theorem selfJumpStaysInPlace : Obligations.SelfJumpStaysInPlace := by
  intro x y s fetches fetched
  obtain ⟨t, ht, -, -, stays, -, -, mem, -, len, run, -⟩ := jumpGoesToTarget x y 0xFFFC#16 s
  have pc : t.pc = s.pc := stays rfl
  have again : t.fetch t.pc.toNat = .jmp x y 0xFFFC#16 := by rw [State.fetch_eq_of_sameMem mem, pc, fetched]
  have fetches' : t.Fetches := by rw [State.Fetches, run, pc, len]; exact fetches
  exact ⟨t, (step_of_fetches fetches).trans (fetched ▸ ht), fetches', pc, again⟩

/-! ### No branch on a register's value -/

/-- The next pc depends on the pc and the flags alone (R121). -/
theorem pcAfter_congr (i : Instr) {s s' : State} (pc : s.pc = s'.pc) (flags : s.flags = s'.flags) :
    pcAfter i s = pcAfter i s' := by
  cases i <;> simp only [pcAfter, pc, flags]

/-- The next flags depend on the flags alone (R120, R121). -/
theorem exec_flags_congr {i : Instr} {s s' t t' : State} (flags : s.flags = s'.flags) (ht : exec i s = .next t)
    (ht' : exec i s' = .next t') : t.flags = t'.flags := by
  by_cases hi : ∃ x y b2 b3, i = .cmp x y b2 b3
  · obtain ⟨x, y, b2, b3, rfl⟩ := hi
    obtain ⟨u, hu, hflags⟩ := exec_cmp_flags x y b2 b3 s
    obtain ⟨u', hu', hflags'⟩ := exec_cmp_flags x y b2 b3 s'
    obtain rfl := eq_of_exec_next ht hu
    obtain rfl := eq_of_exec_next ht' hu'
    rw [hflags, hflags']
  · have notCmp : ∀ x y b2 b3, i ≠ .cmp x y b2 b3 := fun x y b2 b3 h => hi ⟨x, y, b2, b3, h⟩
    rw [exec_flags_of_ne_cmp ht notCmp, exec_flags_of_ne_cmp ht' notCmp, flags]

/-- Settles O29: the next pc is `pcAfter`, which like the next flags sees no register. -/
theorem controlIsIndependentOfRegisters : Obligations.ControlIsIndependentOfRegisters := by
  intro i s s' t t' pc flags admits admits' ht ht'
  obtain ⟨u, hu, hpc, -⟩ := exec_pc_of_admits admits
  obtain ⟨u', hu', hpc', -⟩ := exec_pc_of_admits admits'
  obtain rfl := eq_of_exec_next ht hu
  obtain rfl := eq_of_exec_next ht' hu'
  exact ⟨by rw [hpc, hpc', pcAfter_congr i pc flags], exec_flags_congr flags ht ht'⟩

end Sys2Proof.Machine

/-! Proofs of the statements of spec/43_alu.md: ADD, SUB and the shifts, and operands read before results are written. -/

namespace Sys2Proof.Machine

/-! ### ADD and SUB -/

/-- ADD's result is the sum of the patterns: wrapping the exact sum to 32 bits forgets the signs (R147). -/
theorem addWord_eq (u v : Word) : addWord u v = u + v := by
  rw [addWord, wrap32, BitVec.ofInt_add, BitVec.ofInt_toInt, BitVec.ofInt_toInt]

/-- SUB's result is the difference of the patterns (R147). -/
theorem subWord_eq (u v : Word) : subWord u v = u - v := by
  apply BitVec.eq_of_toInt_eq
  rw [subWord, wrap32, BitVec.toInt_ofInt, BitVec.toInt_sub]

/-- A difference of patterns, read as unsigned, is the exact difference mod 2^32. -/
theorem toNat_sub_eq_emod (u v : Word) : ((u - v).toNat : Int) = (u.toNat - v.toNat : Int) % 2 ^ 32 := by
  have := u.isLt
  have := v.isLt
  rw [BitVec.toNat_sub]
  omega

/-- Settles O22: the results are the sum and the difference of the patterns. -/
theorem addSubWrap : Obligations.AddSubWrap := by
  intro x y b2 b3 s
  have sum : (s.writeResult 0x9 x y b2 b3 (addWord (s.reg x) (s.reg y))).reg x = s.reg x + s.reg y := by
    rw [State.reg_writeResult_same, addWord_eq]
  have difference : (s.writeResult 0xA x y b2 b3 (subWord (s.reg x) (s.reg y))).reg x = s.reg x - s.reg y := by
    rw [State.reg_writeResult_same, subWord_eq]
  exact ⟨⟨_, rfl, sum ▸ BitVec.toInt_add .., sum ▸ BitVec.toNat_add .., s.writeResult_frame ..⟩,
    ⟨_, rfl, difference ▸ BitVec.toInt_sub .., difference ▸ toNat_sub_eq_emod .., s.writeResult_frame ..⟩⟩

/-! ### SAL and SAR -/

theorem salWord_of_ge {n : Byte} (hn : 32 ≤ n.toNat) (v : Word) : salWord v n = 0#32 := if_pos hn

/-- SAL multiplies by 2^n mod 2^32 for every count: from 32 on, 2^32 divides the product (R145). -/
theorem toNat_salWord (v : Word) (n : Byte) : (salWord v n).toNat = v.toNat * 2 ^ n.toNat % 2 ^ 32 := by
  by_cases hn : 32 ≤ n.toNat
  · rw [salWord_of_ge hn, Nat.mod_eq_zero_of_dvd (Dvd.dvd.mul_left (Nat.pow_dvd_pow 2 hn) _)]
    rfl
  · rw [salWord, if_neg hn, BitVec.toNat_shiftLeft, Nat.shiftLeft_eq]

/-- Settles O24: the value written is `salWord` of x[X]. -/
theorem shiftLeftDropsHighBits : Obligations.ShiftLeftDropsHighBits := by
  intro x y b2 b3 s
  have value : (s.writeResult 0xE x y b2 b3 (salWord (s.reg x) b3)).reg x = salWord (s.reg x) b3 :=
    s.reg_writeResult_same ..
  exact ⟨_, rfl, (congrArg BitVec.toNat value).trans (toNat_salWord ..), fun hn => value.trans (salWord_of_ge hn _),
    s.writeResult_frame ..⟩

/-- SAR is a floor division (R146). -/
theorem toInt_sarWord (v : Word) (n : Byte) : (sarWord v n).toInt = v.toInt.fdiv (2 ^ min n.toNat 31) := by
  rw [sarWord, BitVec.toInt_sshiftRight, Int.shiftRight_eq_div_pow, Int.fdiv_eq_ediv_of_nonneg _ (by positivity)]
  norm_cast

/-- From a count of 31 on, the quotient of SAR is 0 or -1: the sign fill (R146). -/
theorem sarWord_of_ge {n : Byte} (hn : 32 ≤ n.toNat) (v : Word) :
    sarWord v n = if 0 ≤ v.toInt then 0x00000000#32 else 0xFFFFFFFF#32 := by
  have := v.le_toInt
  have := v.toInt_lt
  have quotient : (sarWord v n).toInt = v.toInt / 2 ^ 31 := by
    rw [toInt_sarWord, min_eq_right (by omega), Int.fdiv_eq_ediv_of_nonneg _ (by positivity)]
  apply BitVec.eq_of_toInt_eq
  rw [quotient]
  split
  · rw [show (0x00000000#32).toInt = 0 by decide]; omega
  · rw [show (0xFFFFFFFF#32).toInt = -1 by decide]; omega

/-- Settles O25: the value written is `sarWord` of x[X]. -/
theorem shiftRightIsFloorDivision : Obligations.ShiftRightIsFloorDivision := by
  intro x y b2 b3 s
  have value : (s.writeResult 0xF x y b2 b3 (sarWord (s.reg x) b3)).reg x = sarWord (s.reg x) b3 :=
    s.reg_writeResult_same ..
  exact ⟨_, rfl, (congrArg BitVec.toInt value).trans (toInt_sarWord ..), fun hn => value.trans (sarWord_of_ge hn _),
    s.writeResult_frame ..⟩

/-! ### One register as both operands -/

/-- Settles O26: each of the four forms with X = Y takes its operands from the state before it. -/
theorem sameRegisterTwiceReadsFirst : Obligations.SameRegisterTwiceReadsFirst := by
  intro r b2 b3 s
  have doubled : ((s.writeResult 0x9 r r b2 b3 (addWord (s.reg r) (s.reg r))).reg r).toNat =
      2 * (s.reg r).toNat % 2 ^ 32 := by
    rw [State.reg_writeResult_same, addWord_eq, BitVec.toNat_add, Nat.two_mul]
  have cleared : (s.writeResult 0xA r r b2 b3 (subWord (s.reg r) (s.reg r))).reg r = 0#32 := by
    rw [State.reg_writeResult_same, subWord_eq, BitVec.sub_self]
  refine ⟨⟨_, rfl, doubled⟩, ⟨_, rfl, cleared⟩, fun hlo hhi => ⟨?store, ?load⟩⟩
  case store =>
    obtain ⟨t, ht, bytes, -, regs, -⟩ := exec_movMr_spec (x := r) (y := r) (b2 := b2) (b3 := b3) ⟨hlo, hhi⟩
    have fits : (s.reg r).toNat < 256 := (toNat_lt_256_iff _).mpr ⟨hlo, by omega⟩
    have address : (s.reg r).toInt = (s.reg r).toNat := BitVec.toInt_eq_toNat_of_lt (by omega)
    obtain ⟨zero, last⟩ := storedByte_of_lt fits
    refine ⟨t, ht, regs, fun k hk => ?_, ?_⟩
    · rw [bytes k (by omega), zero k hk]
    · rw [bytes 3 (by decide), last, address, Int.toNat_natCast]
  case load =>
    obtain ⟨t, ht, value, -⟩ := exec_movRm_spec (x := r) (y := r) (b2 := b2) (b3 := b3) ⟨hlo, hhi⟩
    exact ⟨t, ht, value⟩

end Sys2Proof.Machine

/-! Proofs of the statements about ignored fields (R68), the skip (R70) and the recorded effect (R93). -/

namespace Sys2Proof.Machine

/-! ### Fields that a format ignores -/

/-- At the end of an instruction the operand fields and the effect reach the record alone. -/
theorem State.retire_sameButTrace (s : State) (k x y x' y' : Nibble) (b2 b3 c2 c3 : Byte) (e e' : Effect) (n : Int) :
    SameButTrace (s.retire k x y b2 b3 e n) (s.retire k x' y' c2 c3 e' n) := rfl

/-- The bytes that a load ignores reach the record alone, also where the load faults. -/
theorem movRm_sameEffect (x y : Nibble) (b2 b3 c2 c3 : Byte) (s : State) :
    SameEffect (.movRm x y b2 b3) (.movRm x y c2 c3) s := by
  by_cases admits : Admits (.movRm x y b2 b3) s
  · exact ⟨_, _, exec_movRm_of_admits admits, exec_movRm_of_admits admits, State.retire_sameButTrace ..⟩
  · exact ⟨_, _, exec_movRm_of_not_admits admits, exec_movRm_of_not_admits admits, rfl⟩

/-- The bytes that a store ignores reach the record alone, also where the store faults. -/
theorem movMr_sameEffect (x y : Nibble) (b2 b3 c2 c3 : Byte) (s : State) :
    SameEffect (.movMr x y b2 b3) (.movMr x y c2 c3) s := by
  by_cases admits : Admits (.movMr x y b2 b3) s
  · exact ⟨_, _, exec_movMr_of_admits admits, exec_movMr_of_admits admits, State.retire_sameButTrace ..⟩
  · exact ⟨_, _, exec_movMr_of_not_admits admits, exec_movMr_of_not_admits admits, rfl⟩

/-- Two instructions that retire with the same counter and next pc from the same state have the same effect. -/
theorem sameEffect_of_retire {i j : Instr} {s u : State} {k x y x' y' : Nibble} {b2 b3 c2 c3 : Byte} {e e' : Effect}
    {n : Int} (hi : exec i s = .next (u.retire k x y b2 b3 e n)) (hj : exec j s = .next (u.retire k x' y' c2 c3 e' n)) :
    SameEffect i j s :=
  ⟨_, _, hi, hj, State.retire_sameButTrace ..⟩

/-- Settles O5: the two instructions of each case retire, or skip, with the same effect; a load and a store may also
fault. -/
theorem ignoredFieldsChangeNothing : Obligations.IgnoredFieldsChangeNothing :=
  fun x y _ _ _ b2 b3 c2 c3 _ s =>
    ⟨sameEffect_of_retire rfl rfl, sameEffect_of_retire rfl rfl, movRm_sameEffect x y b2 b3 c2 c3 s,
      movMr_sameEffect x y b2 b3 c2 c3 s, sameEffect_of_retire rfl rfl, sameEffect_of_retire rfl rfl,
      sameEffect_of_retire rfl rfl, sameEffect_of_retire rfl rfl, sameEffect_of_retire rfl rfl,
      sameEffect_of_retire rfl rfl, sameEffect_of_retire rfl rfl, sameEffect_of_retire rfl rfl,
      sameEffect_of_retire rfl rfl, sameEffect_of_retire rfl rfl, sameEffect_of_retire rfl rfl,
      sameEffect_of_retire rfl rfl, ⟨_, _, rfl, rfl, rfl⟩⟩

/-! ### The skip -/

/-- Settles O30: an UNKNOWN word is `State.skip`. -/
theorem outOfRangeOpcodeIsSkipped : Obligations.OutOfRangeOpcodeIsSkipped := by
  intro op x y b2 b3 s
  obtain ⟨pc, counters, emitted, regs, flags, mem, control⟩ := s.skip_spec op x y b2 b3
  exact ⟨_, rfl, pc, regs, flags, mem, counters, control, emitted⟩

/-! ### The recorded effect -/

/-- An instruction whose only result is x[X] records the value that x[X] holds after it (R93). -/
theorem emitted_of_writeResult {i : Instr} {s t : State} {k x y : Nibble} {b2 b3 : Byte} {v : Word}
    (ht : exec i s = .next t) (runs : exec i s = .next (s.writeResult k x y b2 b3 v)) (opcode : i.opcode = opByte k) :
    ∃ c d, Emitted (.trace s.pc i.opcode x y c d (.reg x (t.reg x))) s t := by
  obtain rfl := eq_of_exec_next ht runs
  obtain ⟨value, -, -, -, emitted, -⟩ := s.writeResult_spec k x y b2 b3 v
  exact ⟨b2, b3, by rwa [opcode, value]⟩

/-- A jump records whether it was taken, and the pc after it (R93). -/
theorem emitted_of_branch {i : Instr} {s t : State} {k x y : Nibble} {off : Half} {taken : Bool}
    (ht : exec i s = .next t) (runs : exec i s = .next (s.branch k x y off taken)) (opcode : i.opcode = opByte k) :
    ∃ c d, Emitted (.trace s.pc i.opcode x y c d (.branch taken t.pc)) s t := by
  obtain rfl := eq_of_exec_next ht runs
  exact ⟨hiByte off, loByte off, opcode ▸ (s.branch_spec k x y off taken).2.2.1⟩

/-- An admitted load records its address and the value that x[X] holds after it (R93). -/
theorem emitted_of_movRm {x y : Nibble} {b2 b3 : Byte} {s t : State} (admits : Admits (.movRm x y b2 b3) s)
    (ht : exec (.movRm x y b2 b3) s = .next t) :
    Emitted (.trace s.pc 0x02#8 x y b2 b3 (.load (s.reg y).toInt x (t.reg x))) s t := by
  obtain rfl := eq_of_exec_next ht (exec_movRm_of_admits admits)
  rw [State.reg_retire, State.reg_setReg_same]
  rfl

/-- An admitted store records its address and the four bytes that stand there after it (R93). -/
theorem emitted_of_movMr {x y : Nibble} {b2 b3 : Byte} {s t : State} (admits : Admits (.movMr x y b2 b3) s)
    (ht : exec (.movMr x y b2 b3) s = .next t) :
    Emitted (.trace s.pc 0x03#8 x y b2 b3 (.store (s.reg x).toInt (t.byte (s.reg x).toInt.toNat)
      (t.byte ((s.reg x).toInt.toNat + 1)) (t.byte ((s.reg x).toInt.toNat + 2))
      (t.byte ((s.reg x).toInt.toNat + 3)))) s t := by
  obtain ⟨u, hu, bytes, -⟩ := exec_movMr_spec admits
  obtain rfl := eq_of_exec_next ht hu
  have byte0 : t.byte (s.reg x).toInt.toNat = storedByte (s.reg y) 0 := bytes 0 (by decide)
  rw [byte0, bytes 1 (by decide), bytes 2 (by decide), bytes 3 (by decide)]
  obtain rfl := eq_of_exec_next ht (exec_movMr_of_admits admits)
  rfl

/-- Settles O42: by the rows of the effect table; the register results are one lemma, and so are the jumps. -/
theorem recordedEffectIsTheEffect : Obligations.RecordedEffectIsTheEffect := by
  intro x y b2 b3 off s t
  refine ⟨?results, fun hlo hhi => emitted_of_movRm ⟨hlo, hhi⟩, fun hlo hhi => emitted_of_movMr ⟨hlo, hhi⟩, ?compare,
    ?jumps⟩
  case results =>
    simp only [List.mem_cons, List.not_mem_nil, or_false]
    rintro i (rfl | rfl | rfl | rfl | rfl | rfl | rfl | rfl | rfl) ht <;> exact emitted_of_writeResult ht rfl rfl
  case compare => rintro ⟨⟩; rfl
  case jumps =>
    simp only [List.mem_cons, List.not_mem_nil, or_false]
    rintro p (rfl | rfl | rfl | rfl) ht <;> exact emitted_of_branch ht rfl rfl

end Sys2Proof.Machine

/-! Proofs of the statements of spec/70_reset_and_hazards.md: what a launch starts with and what a run ends with. -/

namespace Sys2Proof.Machine

@[simp] theorem State.counter_reset (k : Nibble) : State.reset.counter k = 0 := by
  simp [State.reset, State.counter]

@[simp] theorem State.counter_launch (prog tail : List Byte) (f : Flags) (k : Nibble) :
    (State.launch prog tail f).counter k = 0 := State.counter_reset k

/-- Above a program that does not fill the buffer stands TAIL_INIT (R42). -/
theorem State.byte_launch_tail {prog tail : List Byte} {f : Flags} {a : Nat} (past : prog.length ≤ a) (inBuffer : a < 128)
    (given : a - prog.length < tail.length) :
    some ((State.launch prog tail f).byte a) = tail[a - prog.length]? := by
  have whole : prog.take Config.memBytes = prog := List.take_of_length_le (past.trans inBuffer.le)
  rw [State.byte_launch, List.getElem?_take_of_lt inBuffer, whole, List.getElem?_append_right past,
    List.getElem?_eq_getElem given, Option.getD_some]

/-- Settles O46: a launch differs from reset in the flags, the buffer and LEN. -/
theorem launchTakesTailAndFlags : Obligations.LaunchTakesTailAndFlags :=
  fun prog tail f => ⟨rfl, State.counter_launch prog tail f, rfl, rfl, fun _ => State.byte_launch_tail⟩

/-- Settles O47: with LEN = 0 the pc of reset is already at LEN. -/
theorem emptyProgramExitsAtOnce : Obligations.EmptyProgramExitsAtOnce :=
  fun tail f => ⟨_, step_of_len_le_pc rfl le_rfl, rfl, rfl, State.counter_launch [] tail f⟩

theorem readCounter_of_lt {k n : Nat} (h : n < 2 ^ 31) : readCounter k n = n := if_pos h

/-- At EXIT there is a readout, of the state's own counters, registers, flags and buffer (R190). -/
theorem State.report_of_exit {s : State} (h : s.run = .exit) :
    s.report = some ⟨s.hist.mapIdx readCounter, s.regs, s.flags, s.mem⟩ := by
  rw [State.report, h]

theorem State.report_of_ne_exit {s : State} (h : s.run ≠ .exit) : s.report = none := by
  unfold State.report
  split
  · exact absurd ‹_› h
  · rfl
  · rfl

/-- Settles O48: the readout takes each counter through `readCounter`, which below 2^31 is exact. -/
theorem reportShowsFinalState : Obligations.ReportShowsFinalState := by
  intro s
  refine ⟨State.report_of_ne_exit, fun h => ⟨_, State.report_of_exit h, rfl, rfl, rfl, fun k small => ?_⟩⟩
  have stands : s.hist[k.toNat]? = some (s.counter k) := Vector.getElem?_eq_getElem k.isLt
  rw [Vector.getElem?_mapIdx, stands, Option.map_some, readCounter_of_lt small]

end Sys2Proof.Machine

/-! Proofs of the statements of section 1 of spec/20_memory.md: the canonical form of the buffer. -/

namespace Sys2Proof.Machine

/-- Below every listed address a byte reads as unlisted. -/
theorem Memory.read_of_below {m : Memory} {a : Nat} (below : ∀ c ∈ m, a < c.1) : m.read a = Config.unlistedByte := by
  induction m with
  | nil => rfl
  | cons d m ih =>
    obtain ⟨hd, hm⟩ := List.forall_mem_cons.mp below
    rw [Memory.read, if_neg hd.ne]
    exact ih hm

/-- A canonical buffer taken apart: its first cell is below the others and not unlisted, and the others are canonical. -/
theorem Memory.wf_cons {a : Nat} {v : Byte} {m : Memory} (wf : Memory.wf ((a, v) :: m)) :
    (∀ c ∈ m, a < c.1) ∧ v ≠ Config.unlistedByte ∧ Memory.wf m := by
  obtain ⟨rising, cells⟩ := wf
  obtain ⟨first, rest⟩ := List.pairwise_cons.mp rising
  obtain ⟨⟨-, listed⟩, others⟩ := List.forall_mem_cons.mp cells
  exact ⟨first, listed, rest, others⟩

theorem Memory.read_cons_same (a : Nat) (v : Byte) (m : Memory) : Memory.read ((a, v) :: m) a = v := if_pos rfl

/-- A canonical buffer that lists a cell does not read like one whose cells all stand above it. -/
theorem Memory.read_cons_ne_of_below {a : Nat} {v : Byte} {m n : Memory} (wf : Memory.wf ((a, v) :: m))
    (below : ∀ c ∈ n, a < c.1) : Memory.read ((a, v) :: m) a ≠ n.read a := by
  obtain ⟨-, listed, -⟩ := Memory.wf_cons wf
  rw [Memory.read_cons_same, Memory.read_of_below below]
  exact listed

/-- Two buffers with the same first cell that read alike have rests that read alike. -/
theorem Memory.read_eq_of_cons {a : Nat} {v : Byte} {m n : Memory} (hm : ∀ c ∈ m, a < c.1) (hn : ∀ c ∈ n, a < c.1)
    (alike : ∀ b, Memory.read ((a, v) :: m) b = Memory.read ((a, v) :: n) b) (b : Nat) : m.read b = n.read b := by
  by_cases hb : b = a
  · rw [hb, Memory.read_of_below hm, Memory.read_of_below hn]
  · simpa only [Memory.read, if_neg hb] using alike b

/-- Settles O53: the lower of two first addresses would read differently in the other buffer, so the first cells are the
same, and so are the rests. -/
theorem canonicalMemoriesReadAlikeAreEqual : Obligations.CanonicalMemoriesReadAlikeAreEqual := by
  intro m
  induction m with
  | nil =>
    intro n _ wf alike
    cases n with
    | nil => rfl
    | cons d n => exact absurd (alike d.1).symm (Memory.read_cons_ne_of_below wf (by simp))
  | cons c m ih =>
    intro n wf wf' alike
    obtain ⟨a, v⟩ := c
    cases n with
    | nil => exact absurd (alike a) (Memory.read_cons_ne_of_below wf (by simp))
    | cons d n =>
      obtain ⟨b, w⟩ := d
      obtain ⟨above, -, wfRest⟩ := Memory.wf_cons wf
      obtain ⟨above', -, wfRest'⟩ := Memory.wf_cons wf'
      rcases Nat.lt_trichotomy a b with less | rfl | greater
      · have below : ∀ e ∈ (b, w) :: n, a < e.1 :=
          List.forall_mem_cons.mpr ⟨less, fun e he => less.trans (above' e he)⟩
        exact absurd (alike a) (Memory.read_cons_ne_of_below wf below)
      · obtain rfl : v = w := by simpa only [Memory.read_cons_same] using alike a
        rw [ih n wfRest wfRest' (Memory.read_eq_of_cons above above' alike)]
      · have below : ∀ e ∈ (a, v) :: m, b < e.1 :=
          List.forall_mem_cons.mpr ⟨greater, fun e he => greater.trans (above e he)⟩
        exact absurd (alike b).symm (Memory.read_cons_ne_of_below wf' below)

end Sys2Proof.Machine
